-- ==== Sys2Proof/Word.lean ====
section
/-! DEFINITION. The words of PADGEN: a byte (R11) and a 32-bit bus or command word (R61, R91). -/

namespace Sys2Proof

/-- A byte, an unsigned 8-bit number 0..255 (R11). -/
abbrev Byte := BitVec 8

/-- The 32-bit word of the host bus and of a command (R61, R91). -/
abbrev Word := BitVec 32

end Sys2Proof
end

