-- ==== Sys2Proof/Config.lean ====
section
/-! DEFINITION. The parameters of PADGEN (00_scope.md R7) and the values the spec leaves open (R50, R60). -/

namespace Sys2Proof.Config

/-- `SECRET_BYTES` (R7). -/
abbrev secretBytes : Nat := 32

/-- `SEED_MIN` (R7, R112). -/
abbrev seedMin : Nat := 16

/-- `SEED_MAX` (R7, R112). -/
abbrev seedMax : Nat := 1024

/-- `PAD_MIN` (R7, R133). -/
abbrev padMin : Nat := 1

/-- `PAD_MAX` (R7, R133); the host may write no greater PAD_LEN either (R33). -/
abbrev padMax : Nat := 1024

/-- `PAD_DEFAULT`, the length of `NEXTPAD` without an operand (R7, R99). -/
abbrev padDefault : Nat := 32

/-- `BUF_BYTES`, the size of each of the three buffers (R7, R21). -/
abbrev bufBytes : Nat := 1024

/-- One more than the greatest LEN of a command word, whose field has 16 bits (R7, R92). -/
abbrev lenLimit : Nat := 65536

/-- `HEALTH_WARN_PCT` (R7, R182). -/
abbrev healthWarnPct : Nat := 20

/-- `HEALTH_CRIT_PCT` (R7, R182). -/
abbrev healthCritPct : Nat := 5

/-- The two values of the build-time parameter `REDUCE` (R7, R110). -/
inductive Reduce where
  /-- R111, the default. -/
  | xorFold
  /-- R116. -/
  | sha256
  deriving DecidableEq, Repr

/-- What is fixed when a PADGEN is built: `K` and `REDUCE` (R7). A model takes them as arguments: they stand in
`State.build`, which no step changes (log 5). -/
structure Build where
  k : Byte
  reduce : Reduce
  deriving DecidableEq, Repr

/-- `K` of the PADGEN that `State.reset` describes: OPEN, so any of the 256 values (R7, R9; log 5). -/
opaque K : Byte

/-- The draw an UNSPECIFIED buffer byte reads as until it is written (R50, I1): a free value for each hardware reset
(first argument) and each window offset (second argument) (log 3). -/
opaque freeByte : Nat → Nat → Byte

/-- Which 4096-byte page of the platform's address map holds the window: OPEN (R60; log 7). -/
opaque padgenPage : Nat

/-- `PADGEN_BASE`, a multiple of 4096 (R60). -/
def padgenBase : Nat := 4096 * padgenPage

end Sys2Proof.Config
end

