-- ==== Sys2Proof/Syntax.lean ====
section
/-! DEFINITION. The five commands of PADGEN (30_encoding.md R93), one constructor for each row of
opcode_table.json. ILLEGAL (R95) is no row: it is what the decoder refuses. -/

namespace Sys2Proof

/-- A command with its LEN operand, "taken as an unsigned number" (R92). -/
inductive Instr where
  /-- OP 0x1: load the raw seed `IN_BUF[0..len)` (R112). -/
  | setSeed (len : Nat)
  /-- OP 0x2: derive a pad of `len` bytes (R133). -/
  | nextPad (len : Nat)
  /-- OP 0x3: encrypt `IN_BUF[0..len)` (R160). -/
  | encrypt (len : Nat)
  /-- OP 0x4: decrypt `IN_BUF[0..len)` (R161). -/
  | decrypt (len : Nat)
  /-- OP 0x5 with LEN 0: clear Secret and Counter (R120). -/
  | resetState
  deriving DecidableEq, Repr

end Sys2Proof
end

