-- ==== Sys2Proof/WellFormed.lean ====
section
/-! DEFINITION. Which terms of `Instr` a command word can hold: LEN is 0..65535 (R92, R98). -/

namespace Sys2Proof

/-- The instruction has an encoding: its LEN fits the 16-bit field (R92). The assembler refuses any other (R98). -/
def Instr.wellFormed : Instr → Bool
  | .setSeed len => decide (len < Config.lenLimit)
  | .nextPad len => decide (len < Config.lenLimit)
  | .encrypt len => decide (len < Config.lenLimit)
  | .decrypt len => decide (len < Config.lenLimit)
  | .resetState => true

end Sys2Proof
end

