-- ==== Sys2Proof/Decode.lean ====
section
/-! DEFINITION. The decoder of command words, total on all 2^32 words (R94), and the encoder (R98). -/

namespace Sys2Proof

/-- Why a word is ILLEGAL (R95): the three causes R94 tells apart. -/
inductive IllegalCommand where
  /-- RSV [15:4] is not zero. -/
  | reservedBits
  /-- OP is 0x0 or 0x6..0xF. -/
  | reservedOpcode
  /-- OP is 0x5 and LEN is not zero. -/
  | resetStateLength
  deriving DecidableEq, Repr

/-- OP, bits [3:0] (R91). -/
def opField (w : Word) : BitVec 4 := w.extractLsb' 0 4

/-- RSV, bits [15:4] (R91). -/
def rsvField (w : Word) : BitVec 12 := w.extractLsb' 4 12

/-- LEN, bits [31:16], as an unsigned number (R91, R92). -/
def lenField (w : Word) : Nat := (w.extractLsb' 16 16).toNat

/-- `decode` of R94. -/
def decode (w : Word) : Except IllegalCommand Instr :=
  if rsvField w ≠ 0 then .error .reservedBits
  else if opField w = 1 then .ok (.setSeed (lenField w))
  else if opField w = 2 then .ok (.nextPad (lenField w))
  else if opField w = 3 then .ok (.encrypt (lenField w))
  else if opField w = 4 then .ok (.decrypt (lenField w))
  else if opField w = 5 then
    if lenField w = 0 then .ok .resetState else .error .resetStateLength
  else .error .reservedOpcode

/-- A command word from its LEN and OP: `(len << 16) | op` (R98). -/
def commandWord (len op : Nat) : Word := BitVec.ofNat 32 (len <<< 16 ||| op)

/-- The word the assembler gives a command (R93, R98). -/
def encode : Instr → Word
  | .setSeed len => commandWord len 1
  | .nextPad len => commandWord len 2
  | .encrypt len => commandWord len 3
  | .decrypt len => commandWord len 4
  | .resetState => 0x00000005

/-- The instruction the decoder reads from a word of the opcode table, given as a number of `nbits` bits. -/
def decodeTableWord (nbits w : Nat) : Option Instr :=
  (decode (BitVec.ofNat 32 (w % 2 ^ nbits))).toOption

end Sys2Proof
end

