-- ==== Sys2Proof/Machine/State.lean ====
section
/-! DEFINITION. The state of PADGEN (10_state.md R21), the events of the host (R20), the status codes (R210) and
the state after reset (R50). -/

namespace Sys2Proof.Machine

/-- PADGEN has no fault and no stuck state (R220; 93_implementation_defined.md), so a step never ends in a fault
and there is no reason to list (log 13). -/
inductive Fault where
  deriving DecidableEq, Repr

/-- Reasons to give an instruction no meaning. -/
inductive Refusal where
  /-- For an arm of `exec` without a meaning. No arm raises it: every command is modelled (safe if one did). -/
  | notModelled (mnemonic : String)
  deriving DecidableEq, Repr

/-- What one step or one command answers. -/
abbrev Outcome (α : Type) := Host.Outcome α Fault Refusal

/-- The status codes a command can finish with (R210). -/
inductive StatusCode where
  | ok
  | seedTooShort
  | notEntangled
  | lengthOutOfRange
  | padTooShort
  | decodeMismatch
  | illegalCommand
  deriving DecidableEq, Repr

/-- The three 1024-byte buffers (R11, R21). -/
inductive Buf where
  | inBuf
  | padBuf
  | outBuf
  deriving DecidableEq, Repr

/-- What the outside world does to PADGEN, one event at a time (R20, R61, R70, R222). The master's number only says
who is answered: PADGEN has no master identifier (R233). -/
inductive HostEvent where
  /-- `BusRead(off)` (R66). -/
  | read (master off : Nat)
  /-- `BusWrite(off, v)` (R67). -/
  | write (master off : Nat) (v : Word)
  /-- Hardware reset, asserted and released (R240); power-up is the same event (R235). -/
  | reset
  deriving DecidableEq, Repr

/-- The word a bus read gave to a master. -/
structure Answer where
  master : Nat
  data : Word
  deriving DecidableEq, Repr

/-- The buffer bytes written since the last hardware reset, by window offset. An offset not listed holds no value of
its own: it still reads as its draw (R50; log 4). -/
abbrev Memory := List Host.Cell

/-- The canonical form: offsets strictly rising. An unlisted offset has no value, so no entry can equal it. -/
abbrev Memory.wf (m : Memory) : Prop := m.Pairwise (fun c d => c.1 < d.1)

/-- A 32-byte Secret (R21). -/
abbrev Secret := Vector Byte 32

/-- 32 zero bytes (R50, R120). -/
abbrev Secret.zero : Secret := Vector.replicate 32 0

/-- PADGEN's architectural state (R21) and the model's own fields `build`, `epoch`, `pending` and `answers`. -/
structure State where
  /-- `K` and `REDUCE`, fixed when PADGEN is built (R7; log 5). -/
  build : Config.Build
  /-- `SECRET` (R21). -/
  secret : Secret
  /-- `HAS_SECRET` (R21). -/
  hasSecret : Bool
  /-- `COUNTER` (R21). -/
  counter : BitVec 8
  /-- `ERR` (R21, R210). -/
  err : BitVec 4
  /-- `PAD_LEN` (R21, R32). -/
  padLen : BitVec 11
  /-- `OUT_LEN` (R21, R34). -/
  outLen : BitVec 11
  /-- `IN_BUF`, `PAD_BUF` and `OUT_BUF` (R21, R38), as far as they are written. -/
  mem : Memory
  /-- How many hardware resets there have been: it selects the draws of the unwritten bytes (log 3). -/
  epoch : Nat
  /-- The host's events still to come, in the total order of R70 (log 1). -/
  pending : List HostEvent
  /-- What bus reads have answered, oldest first (log 9). -/
  answers : List Answer
  deriving DecidableEq, Repr

/-- The machine right after hardware reset (R50, R240). -/
def State.reset : State where
  build := ⟨Config.K, .xorFold⟩
  secret := Secret.zero
  hasSecret := false
  counter := 0
  err := 0
  padLen := 0
  outLen := 0
  mem := []
  epoch := 0
  pending := []
  answers := []

end Sys2Proof.Machine
end

