-- ==== Sys2Proof/Machine/Ops.lean ====
section
/-! DEFINITION. The named operations over the buffers and registers (00_scope.md R12, 20_memory.md R62), the one
end of every command (`finish`) and hardware reset (R240). -/

namespace Sys2Proof.Machine

/-! ## Memory -/

/-- The byte written at a window offset since reset, if there is one. -/
def Memory.read? : Memory → Nat → Option Byte
  | [], _ => none
  | c :: m, a => if c.1 = a then some c.2 else Memory.read? m a

/-- Write one byte, keeping the canonical form. -/
def Memory.write : Memory → Nat → Byte → Memory
  | [], a, v => [(a, v)]
  | c :: m, a, v =>
    if a < c.1 then (a, v) :: c :: m
    else if a = c.1 then (a, v) :: m
    else c :: Memory.write m a v

/-- Write bytes one after another, the first at offset `a`. -/
def Memory.writeFrom : Memory → Nat → List Byte → Memory
  | m, _, [] => m
  | m, a, v :: vs => Memory.writeFrom (m.write a v) (a + 1) vs

/-- Where a buffer's byte 0 stands in the window (R62). -/
def Buf.base : Buf → Nat
  | .inBuf => 0x400
  | .padBuf => 0x800
  | .outBuf => 0xC00

/-- The byte at a window offset: the one written last, or else its draw (R50). -/
def State.byteAt (s : State) (a : Nat) : Byte :=
  match s.mem.read? a with
  | some v => v
  | none => Config.freeByte s.epoch a

/-- `BufRead(buf, i)` (R12). -/
def bufRead (b : Buf) (i : Nat) (s : State) : Byte := s.byteAt (b.base + i)

/-- `BufWrite(buf, i, v)` (R12). -/
def bufWrite (b : Buf) (i : Nat) (v : Byte) (s : State) : State :=
  { s with mem := s.mem.write (b.base + i) v }

/-- The bytes `buf[0..n)` (R11). -/
def bufReadBytes (b : Buf) (n : Nat) (s : State) : List Byte :=
  (List.range n).map fun i => bufRead b i s

/-- `BufWrite(buf, i, vs[i])` for `i` in `0 .. len(vs)-1`, in that order. -/
def bufWriteBytes (b : Buf) (vs : List Byte) (s : State) : State :=
  { s with mem := s.mem.writeFrom b.base vs }

/-- The four bytes of a bus word, least significant first (R62). -/
def bytesOfWord (v : Word) : List Byte :=
  [v.extractLsb' 0 8, v.extractLsb' 8 8, v.extractLsb' 16 8, v.extractLsb' 24 8]

/-- The bus word of four bytes, the first in its least significant bits (R62). -/
def wordOfBytes (b0 b1 b2 b3 : Byte) : Word := b3 ++ b2 ++ b1 ++ b0

/-- Word `w` of a buffer as a bus read gives it (R62). -/
def bufReadWord (b : Buf) (w : Nat) (s : State) : Word :=
  wordOfBytes (bufRead b (4 * w) s) (bufRead b (4 * w + 1) s)
    (bufRead b (4 * w + 2) s) (bufRead b (4 * w + 3) s)

/-- A bus write of word `w` of a buffer: all four bytes (R62, R63). -/
def bufWriteWord (b : Buf) (w : Nat) (v : Word) (s : State) : State :=
  { s with mem := s.mem.writeFrom (b.base + 4 * w) (bytesOfWord v) }

/-! ## The end of a command, and reset -/

/-- The number of a status code in `ERR` (R210). -/
def StatusCode.code : StatusCode → BitVec 4
  | .ok => 0
  | .seedTooShort => 1
  | .notEntangled => 2
  | .lengthOutOfRange => 3
  | .padTooShort => 4
  | .decodeMismatch => 5
  | .illegalCommand => 7

/-- `finish(code)`: end the command with `ERR <- code` (R12). PADGEN has no other way to report a failure (R220). -/
def finish (c : StatusCode) (s : State) : State := { s with err := c.code }

/-- What a word that `decode` maps to ILLEGAL does: `ERR <- 7`, nothing else (R95). -/
def illegalCommand (s : State) : State := finish .illegalCommand s

/-- Hardware reset (R240): every element at its reset value (R50), the buffer bytes fresh draws. The build and the
host's own lists are not PADGEN's to reset (log 8). -/
def hardwareReset (s : State) : State :=
  { State.reset with
    build := s.build, epoch := s.epoch + 1, pending := s.pending, answers := s.answers }

/-- A bus write of `v` to PAD_LEN: taken when the whole word is at most 1024, else dropped (R33). -/
def writePadLen (v : Word) (s : State) : State :=
  if v.toNat ≤ Config.padMax then { s with padLen := BitVec.ofNat 11 v.toNat } else s

/-- Go on from a next state, and stop where the first part stopped. -/
def andThen {α β : Type} (o : Outcome α) (f : α → Outcome β) : Outcome β :=
  match o with
  | .next a => f a
  | .fault r => .fault r
  | .refused r => .refused r

end Sys2Proof.Machine
end

