-- ==== Sys2Proof/Machine/Operands.lean ====
section
/-! DEFINITION. The implicit operands of the commands (R92) and the operand of a bus transaction, its offset (R61). -/

namespace Sys2Proof.Machine

/-- The input of a command, `IN_BUF[0..len)`: the raw seed (R112), the message (R160) or the ciphertext (R161). -/
def inputBytes (len : Nat) (s : State) : List Byte := bufReadBytes .inBuf len s

/-- The pad bytes a cipher command combines with, `PAD_BUF[0..len)` (R160, R161). -/
def padBytes (len : Nat) (s : State) : List Byte := bufReadBytes .padBuf len s

/-- `xor_combine`: byte `i` of the input with byte `i` of the pad (R164). -/
def xorCombine (a p : List Byte) : List Byte := List.zipWith (· ^^^ ·) a p

/-- What a bus transaction reaches (R66, R67). -/
inductive Target where
  | cmd
  | status
  | padLen
  | outLen
  | health
  | healthPct
  | reserved
  /-- Word `w` of a buffer. -/
  | buffer (b : Buf) (w : Nat)
  deriving DecidableEq, Repr

/-- The block decodes offset bits [11:2] only (R61, R64). -/
def wordOffset (off : Nat) : Nat := off &&& 0xFFC

/-- What the word at offset `o` is (10_state.md section 4). -/
def targetOfWord (o : Nat) : Target :=
  if o = 0x000 then .cmd
  else if o = 0x004 then .status
  else if o = 0x008 then .padLen
  else if o = 0x00C then .outLen
  else if o = 0x010 then .health
  else if o = 0x014 then .healthPct
  else if o < 0x400 then .reserved
  else if o < 0x800 then .buffer .inBuf ((o - 0x400) / 4)
  else if o < 0xC00 then .buffer .padBuf ((o - 0x800) / 4)
  else .buffer .outBuf ((o - 0xC00) / 4)

/-- What a transaction at any offset reaches (R61, R66, R67). -/
def target (off : Nat) : Target := targetOfWord (wordOffset off)

end Sys2Proof.Machine
end

