-- ==== Sys2Proof/Machine/Flags.lean ====
section
/-! DEFINITION. The status flags HAS_SECRET and ERR as STATUS shows them (R27, R31), and the pad health (R180 to
R182), which is computed from COUNTER at each read. -/

namespace Sys2Proof.Machine

/-- The STATUS register, `{0^8, COUNTER, 0^7, HAS_SECRET, 0^4, ERR}` (R31). -/
def statusWord (s : State) : Word :=
  0#8 ++ s.counter ++ 0#7 ++ BitVec.ofBool s.hasSecret ++ 0#4 ++ s.err

/-- `PADS_REMAINING = 256 - COUNTER` (R180). -/
def padsRemaining (c : BitVec 8) : Nat := 256 - c.toNat

/-- The three health classes (R182). -/
inductive HealthStatus where
  | healthy
  | warning
  | critical
  deriving DecidableEq, Repr

/-- `health_status(COUNTER)`: both thresholds are strict and exact (R182). -/
def healthStatus (c : BitVec 8) : HealthStatus :=
  if padsRemaining c * 100 > Config.healthWarnPct * 256 then .healthy
  else if padsRemaining c * 100 > Config.healthCritPct * 256 then .warning
  else .critical

/-- HSTATUS (R35). -/
def HealthStatus.code : HealthStatus → BitVec 2
  | .healthy => 0
  | .warning => 1
  | .critical => 2

/-- The HEALTH register, `{COUNTER, 0^6, HSTATUS, 0^7, PADS_REMAINING}` (R35, R180). -/
def healthWord (s : State) : Word :=
  s.counter ++ 0#6 ++ (healthStatus s.counter).code ++ 0#7 ++ BitVec.ofNat 9 (padsRemaining s.counter)

/-- `PCT_X256 = (256 - COUNTER) * 100` (R36, R181). -/
def pctX256 (c : BitVec 8) : Nat := padsRemaining c * 100

/-- The HEALTH_PCT register: PCT_X256 zero-extended (R36, R181). -/
def healthPctWord (s : State) : Word := BitVec.ofNat 32 (pctX256 s.counter)

end Sys2Proof.Machine
end

