-- ==== Sys2Proof/Machine/Utf8.lean ====
section
/-! DEFINITION. UTF-8: the well-formedness check of DECRYPT (43_cipher.md R163), and the encoder and decoder of the
host layer (45_host_layer.md R191, R192). -/

namespace Sys2Proof.Machine

/-- The bytes `lo..hi`, both included. -/
structure ByteRange where
  lo : Byte
  hi : Byte
  deriving DecidableEq, Repr

/-- The byte is in the range. -/
def ByteRange.holds (r : ByteRange) (b : Byte) : Bool := decide (r.lo ≤ b) && decide (b ≤ r.hi)

/-- A row of R163's table: the range of the first byte and the ranges of the bytes after it. -/
structure Utf8Row where
  first : ByteRange
  rest : List ByteRange
  deriving DecidableEq, Repr

/-- 80..BF. -/
def contRange : ByteRange := ⟨0x80, 0xBF⟩

/-- The table of well-formed sequences (R163). -/
def utf8Table : List Utf8Row :=
  [⟨⟨0x00, 0x7F⟩, []⟩,
   ⟨⟨0xC2, 0xDF⟩, [contRange]⟩,
   ⟨⟨0xE0, 0xE0⟩, [⟨0xA0, 0xBF⟩, contRange]⟩,
   ⟨⟨0xE1, 0xEC⟩, [contRange, contRange]⟩,
   ⟨⟨0xED, 0xED⟩, [⟨0x80, 0x9F⟩, contRange]⟩,
   ⟨⟨0xEE, 0xEF⟩, [contRange, contRange]⟩,
   ⟨⟨0xF0, 0xF0⟩, [⟨0x90, 0xBF⟩, contRange, contRange]⟩,
   ⟨⟨0xF1, 0xF3⟩, [contRange, contRange, contRange]⟩,
   ⟨⟨0xF4, 0xF4⟩, [⟨0x80, 0x8F⟩, contRange, contRange]⟩]

/-- The row whose first-byte range holds the byte; none for 80..C1 and F5..FF (R163). -/
def utf8Row (b : Byte) : Option Utf8Row := utf8Table.find? fun r => r.first.holds b

/-- The scan of R163, one byte at a time: `want` is the ranges the sequence in hand still needs (log 17). -/
def utf8Scan (want : List ByteRange) : List Byte → Bool
  | [] => want.isEmpty
  | b :: M =>
    match want with
    | r :: rs => r.holds b && utf8Scan rs M
    | [] =>
      match utf8Row b with
      | none => false
      | some row => utf8Scan row.rest M

/-- `utf8_well_formed(M)` (R163). -/
def utf8WellFormed (M : List Byte) : Bool := utf8Scan [] M

/-! ## The host's encoder and decoder -/

/-- A text: a sequence of Unicode scalar values (R191), which is what a Lean `Char` is. -/
abbrev Text := List Char

/-- A continuation byte with six bits of a code point, those from bit `6 * k` up. -/
def contByte (n k : Nat) : Byte := BitVec.ofNat 8 (0x80 + n / 64 ^ k % 64)

/-- The UTF-8 bytes of one scalar value (R191). -/
def utf8EncodeChar (ch : Char) : List Byte :=
  let n := ch.toNat
  if n < 0x80 then [BitVec.ofNat 8 n]
  else if n < 0x800 then [BitVec.ofNat 8 (0xC0 + n / 64), contByte n 0]
  else if n < 0x10000 then [BitVec.ofNat 8 (0xE0 + n / 64 ^ 2), contByte n 1, contByte n 0]
  else [BitVec.ofNat 8 (0xF0 + n / 64 ^ 3), contByte n 2, contByte n 1, contByte n 0]

/-- `utf8_encode(text)` (R191). -/
def utf8Encode (text : Text) : List Byte := text.flatMap utf8EncodeChar

/-- The code-point bits in a first byte that `k` bytes follow: 7, 5, 4 or 3 of them (R191). -/
def leadBits (k : Nat) (b : Byte) : Nat :=
  if k = 0 then b.toNat else b.toNat % 2 ^ (6 - k)

/-- Decode, with the code-point bits `acc` and the ranges `want` of the sequence in hand. -/
def utf8DecodeFrom (acc : Nat) (want : List ByteRange) : List Byte → Option Text
  | [] => if want.isEmpty then some [] else none
  | b :: M =>
    match want with
    | [] =>
      match utf8Row b with
      | none => none
      | some ⟨_, []⟩ => (utf8DecodeFrom 0 [] M).map (Char.ofNat b.toNat :: ·)
      | some ⟨_, r :: rs⟩ => utf8DecodeFrom (leadBits (rs.length + 1) b) (r :: rs) M
    | r :: rs =>
      if r.holds b then
        let acc' := acc * 64 + b.toNat % 64
        if rs.isEmpty then (utf8DecodeFrom 0 [] M).map (Char.ofNat acc' :: ·)
        else utf8DecodeFrom acc' rs M
      else none

/-- `utf8_decode(M)`, defined only where `utf8_well_formed(M)` holds. It strips no byte order mark and inserts no
replacement character (R192). -/
def utf8Decode (M : List Byte) : Option Text := utf8DecodeFrom 0 [] M

end Sys2Proof.Machine
end

