-- ==== Sys2Proof/Machine/Cipher.lean ====
section
/-! DEFINITION. The XOR stream cipher (43_cipher.md): ENCRYPT and DECRYPT. -/

namespace Sys2Proof.Machine

/-- A cipher command that fails: `OUT_LEN <- 0` and the code (R162). -/
def cipherFail (c : StatusCode) (s : State) : State := finish c { s with outLen := 0 }

/-- A cipher command that succeeds: the result in OUT_BUF, its length in OUT_LEN (R162). -/
def cipherDone (out : List Byte) (s : State) : State :=
  finish .ok { bufWriteBytes .outBuf out s with outLen := BitVec.ofNat 11 out.length }

/-- The bytes a cipher command computes: `IN_BUF[i] XOR PAD_BUF[i]` for `i` below LEN (R160, R161, R164). -/
def cipherBytes (len : Nat) (s : State) : List Byte := xorCombine (inputBytes len s) (padBytes len s)

/-- ENCRYPT (R160). -/
def execEncrypt (len : Nat) (s : State) : Outcome State :=
  if len > s.padLen.toNat then .next (cipherFail .padTooShort s)
  else .next (cipherDone (cipherBytes len s) s)

/-- DECRYPT (R161). -/
def execDecrypt (len : Nat) (s : State) : Outcome State :=
  if len > s.padLen.toNat then .next (cipherFail .padTooShort s)
  else if utf8WellFormed (cipherBytes len s) = false then .next (cipherFail .decodeMismatch s)
  else .next (cipherDone (cipherBytes len s) s)

end Sys2Proof.Machine
end

