-- ==== Sys2Proof/Machine/Keystream.lean ====
section
/-! DEFINITION. The keystream generator (41_keystream.md): derive and NEXTPAD, and the counter (42_counter.md). -/

namespace Sys2Proof.Machine

/-- Byte `i` of a pad: the sum on naturals, reduced modulo 256 (R130). -/
def padByte (k : Byte) (S : Secret) (c : BitVec 8) (i : Nat) : Byte :=
  have h : i % 32 < 32 := Nat.mod_lt i (by decide)
  BitVec.ofNat 8 (S[i % 32].toNat + c.toNat + i * k.toNat)

/-- `derive(S, c, L)` with the constant `K` (R130). -/
def derive (k : Byte) (S : Secret) (c : BitVec 8) (len : Nat) : List Byte :=
  (List.range len).map (padByte k S c)

/-- `advance`: `(COUNTER + 1) mod 256` (R150). -/
def advance (c : BitVec 8) : BitVec 8 := BitVec.ofNat 8 ((c.toNat + 1) % 256)

/-- Advance COUNTER, the last write of a NEXTPAD that succeeds (R150). -/
def advanceCounter (s : State) : State := { s with counter := advance s.counter }

/-- Leave a pad in PAD_BUF with its length (R133). -/
def issuePad (pad : List Byte) (s : State) : State :=
  { bufWriteBytes .padBuf pad s with padLen := BitVec.ofNat 11 pad.length }

/-- NEXTPAD (R133). -/
def execNextPad (len : Nat) (s : State) : Outcome State :=
  if s.hasSecret = false then .next (finish .notEntangled s)
  else if len < Config.padMin ∨ len > Config.padMax then .next (finish .lengthOutOfRange s)
  else
    .next (finish .ok (advanceCounter (issuePad (derive s.build.k s.secret s.counter len) s)))

end Sys2Proof.Machine
end

