-- ==== Sys2Proof/Machine/Sha256.lean ====
section
/-! DEFINITION. SHA-256, the second value of REDUCE (40_seedstore.md R116), as FIPS 180-4 defines it. The spec names
the standard and does not transcribe it: all of it is PRESUMED (log 6). -/

namespace Sys2Proof.Machine

/-! ## The constants, from the primes they are the root fractions of (FIPS 180-4, 4.2.2 and 5.3.3) -/

/-- The prime numbers below 312, which are the first 64: a divisor of such a number is found below 18. -/
def shaPrimes : List Nat :=
  (List.range 312).filter fun n => decide (2 ≤ n) && (List.range 18).all fun d => d < 2 || d == n || n % d != 0

/-- The greatest number whose power `deg` is at most `n`, `r` being its bits from bit `b` up. -/
def rootFrom (deg n : Nat) : Nat → Nat → Nat
  | 0, r => r
  | b + 1, r => rootFrom deg n b (if (r + 2 ^ b) ^ deg ≤ n then r + 2 ^ b else r)

/-- The first 32 bits of the fractional part of the root of degree `deg` of `p`: the root of `p * 2^(32*deg)`, which
has at most 35 bits here, without what stands above bit 31. -/
def rootFraction (deg p : Nat) : Word := BitVec.ofNat 32 (rootFrom deg (p * 2 ^ (32 * deg)) 35 0)

/-- The 64 round constants: cube roots of the first 64 primes (FIPS 180-4, 4.2.2). -/
def sha256K : List Word := shaPrimes.map (rootFraction 3)

/-- The eight working variables of a compression, and the hash value (FIPS 180-4, 6.2). -/
structure Sha where
  a : Word
  b : Word
  c : Word
  d : Word
  e : Word
  f : Word
  g : Word
  h : Word
  deriving DecidableEq, Repr

/-- The initial hash value: square roots of the first eight primes (FIPS 180-4, 5.3.3). -/
def sha256Init : Sha :=
  let f (i : Nat) : Word := rootFraction 2 (shaPrimes.getD i 0)
  ⟨f 0, f 1, f 2, f 3, f 4, f 5, f 6, f 7⟩

/-- Sigma 0 of a working variable (FIPS 180-4, 4.1.2). -/
def shaBigSigma0 (x : Word) : Word := x.rotateRight 2 ^^^ x.rotateRight 13 ^^^ x.rotateRight 22

/-- Sigma 1 of a working variable. -/
def shaBigSigma1 (x : Word) : Word := x.rotateRight 6 ^^^ x.rotateRight 11 ^^^ x.rotateRight 25

/-- sigma 0 of a schedule word. -/
def shaSmallSigma0 (x : Word) : Word := x.rotateRight 7 ^^^ x.rotateRight 18 ^^^ x >>> 3

/-- sigma 1 of a schedule word. -/
def shaSmallSigma1 (x : Word) : Word := x.rotateRight 17 ^^^ x.rotateRight 19 ^^^ x >>> 10

/-- Ch. -/
def shaCh (x y z : Word) : Word := (x &&& y) ^^^ (~~~x &&& z)

/-- Maj. -/
def shaMaj (x y z : Word) : Word := (x &&& y) ^^^ (x &&& z) ^^^ (y &&& z)

/-- One round with its constant and schedule word (FIPS 180-4, 6.2.2 step 3). -/
def shaRound (v : Sha) (kw : Word × Word) : Sha :=
  let t1 := v.h + shaBigSigma1 v.e + shaCh v.e v.f v.g + kw.1 + kw.2
  let t2 := shaBigSigma0 v.a + shaMaj v.a v.b v.c
  ⟨t1 + t2, v.a, v.b, v.c, v.d + t1, v.e, v.f, v.g⟩

/-- `n` further schedule words in front of `w`, the latest first (FIPS 180-4, 6.2.2 step 1). -/
def shaSchedule : Nat → List Word → List Word
  | 0, w => w
  | n + 1, w =>
    let next := shaSmallSigma1 (w.getD 1 0) + w.getD 6 0 + shaSmallSigma0 (w.getD 14 0) + w.getD 15 0
    shaSchedule n (next :: w)

/-- Compress one block of sixteen words into the hash value (FIPS 180-4, 6.2.2). -/
def shaCompress (h : Sha) (block : List Word) : Sha :=
  let v := (sha256K.zip (shaSchedule 48 block.reverse).reverse).foldl shaRound h
  ⟨h.a + v.a, h.b + v.b, h.c + v.c, h.d + v.d, h.e + v.e, h.f + v.f, h.g + v.g, h.h + v.h⟩

/-- The padded message: a 1 bit, zero bits up to 8 bytes short of a multiple of 64 bytes, and the length in bits as a
64-bit big-endian number (FIPS 180-4, 5.1.1). -/
def shaPad (raw : List Byte) : List Byte :=
  let bits : BitVec 64 := BitVec.ofNat 64 (8 * raw.length)
  raw ++ [0x80] ++ List.replicate ((119 - raw.length % 64) % 64) 0 ++
    (List.range 8).map fun i => bits.extractLsb' (56 - 8 * i) 8

/-- Big-endian words of a byte sequence whose length is a multiple of four. -/
def shaWords : List Byte → List Word
  | b0 :: b1 :: b2 :: b3 :: rest => (b0 ++ b1 ++ b2 ++ b3) :: shaWords rest
  | _ => []

/-- Compress `n` blocks, taken from the front of the words. -/
def shaBlocks : Nat → Sha → List Word → Sha
  | 0, h, _ => h
  | n + 1, h, ws => shaBlocks n (shaCompress h (ws.take 16)) (ws.drop 16)

/-- The four bytes of a word, most significant first. -/
def shaBytes (w : Word) : List Byte := (bytesOfWord w).reverse

/-- The 32 digest bytes of a hash value, in order. -/
def shaDigest (h : Sha) : List Byte :=
  [h.a, h.b, h.c, h.d, h.e, h.f, h.g, h.h].flatMap shaBytes

/-- SHA-256 of a byte sequence (R116). -/
def sha256 (raw : List Byte) : Secret :=
  let words := shaWords (shaPad raw)
  let digest := shaDigest (shaBlocks (words.length / 16) sha256Init words)
  Vector.ofFn fun i => digest.getD i.val 0

end Sys2Proof.Machine
end

