-- ==== Sys2Proof/Machine/SeedStore.lean ====
section
/-! DEFINITION. The seed store (40_seedstore.md): REDUCE, SETSEED and RESETSTATE. -/

namespace Sys2Proof.Machine

/-- Fold bytes into a Secret, the first of them as raw seed byte `i` (the loop of R111). -/
def xorFoldFrom (S : Secret) (i : Nat) : List Byte → Secret
  | [] => S
  | b :: raw =>
    have h : i % 32 < 32 := Nat.mod_lt i (by decide)
    xorFoldFrom (S.set (i % 32) (S[i % 32] ^^^ b)) (i + 1) raw

/-- `XOR_FOLD(raw)` (R111). -/
def xorFold (raw : List Byte) : Secret := xorFoldFrom Secret.zero 0 raw

/-- `REDUCE(raw)`, as the build fixes it (R110, R111, R116). -/
def reduce (r : Config.Reduce) (raw : List Byte) : Secret :=
  match r with
  | .xorFold => xorFold raw
  | .sha256 => sha256 raw

/-- A new Secret replaces the old one wholesale and takes the Counter back to 0 (R112). -/
def entangle (S : Secret) (s : State) : State :=
  { s with secret := S, hasSecret := true, counter := 0 }

/-- The unentangled state: no Secret, Counter 0 (R120). -/
def disentangle (s : State) : State :=
  { s with secret := Secret.zero, hasSecret := false, counter := 0 }

/-- SETSEED (R112). -/
def execSetSeed (len : Nat) (s : State) : Outcome State :=
  if len > Config.seedMax then .next (finish .lengthOutOfRange s)
  else if len < Config.seedMin then .next (finish .seedTooShort s)
  else .next (finish .ok (entangle (reduce s.build.reduce (inputBytes len s)) s))

/-- RESETSTATE (R120). -/
def execResetState (s : State) : Outcome State :=
  .next (finish .ok (disentangle s))

end Sys2Proof.Machine
end

