-- ==== Sys2Proof/Machine/Dispatch.lean ====
section
/-! DEFINITION. The dispatch of the five commands to their meanings. -/

namespace Sys2Proof.Machine

def exec (i : Instr) (s : State) : Host.Outcome State Fault Refusal :=
  match i with
  | .setSeed len => Sys2Proof.Machine.execSetSeed len s
  | .nextPad len => Sys2Proof.Machine.execNextPad len s
  | .encrypt len => Sys2Proof.Machine.execEncrypt len s
  | .decrypt len => Sys2Proof.Machine.execDecrypt len s
  | .resetState => Sys2Proof.Machine.execResetState s

end Sys2Proof.Machine
end

