-- ==== Sys2Proof/Machine/Bus.lean ====
section
/-! DEFINITION. The host bus (20_memory.md): reads (R66), writes (R67), the command a CMD write runs (R90), and the
delivery of one host event. -/

namespace Sys2Proof.Machine

/-- `BusRead(off)` (R66). It changes nothing (R65). -/
def busRead (off : Nat) (s : State) : Word :=
  match target off with
  | .cmd => 0
  | .status => statusWord s
  | .padLen => s.padLen.setWidth 32
  | .outLen => s.outLen.setWidth 32
  | .health => healthWord s
  | .healthPct => healthPctWord s
  | .reserved => 0
  | .buffer b w => bufReadWord b w s

/-- What a write of `w` to CMD does: run `decode(w)`, a command or ILLEGAL (R90, R94, R95). -/
def runCommand (w : Word) (s : State) : Outcome State :=
  match decode w with
  | .ok i => exec i s
  | .error _ => .next (illegalCommand s)

/-- `BusWrite(off, v)` (R67). A write to a read-only register, to OUT_BUF or to a reserved offset is ignored. -/
def busWrite (off : Nat) (v : Word) (s : State) : Outcome State :=
  match target off with
  | .cmd => runCommand v s
  | .padLen => .next (writePadLen v s)
  | .buffer .inBuf w => .next (bufWriteWord .inBuf w v s)
  | .buffer .padBuf w => .next (bufWriteWord .padBuf w v s)
  | .buffer .outBuf _ => .next s
  | .status => .next s
  | .outLen => .next s
  | .health => .next s
  | .healthPct => .next s
  | .reserved => .next s

/-- Record what a bus read answered, and to whom. -/
def answer (master : Nat) (v : Word) (s : State) : State :=
  { s with answers := s.answers ++ [⟨master, v⟩] }

/-- One host event, complete before the next one (R65, R70). -/
def deliver (e : HostEvent) (s : State) : Outcome State :=
  match e with
  | .read master off => .next (answer master (busRead off s) s)
  | .write _ off v => busWrite off v s
  | .reset => .next (hardwareReset s)

/-- Deliver events one after another. -/
def deliverAll : List HostEvent → State → Outcome State
  | [], s => .next s
  | e :: es, s => andThen (deliver e s) (deliverAll es)

end Sys2Proof.Machine
end

