-- ==== Sys2Proof/Machine/Script.lean ====
section
/-! DEFINITION. The host-script notation (30_encoding.md R99) as lists of host events, and the interleavings of
several masters' lists (20_memory.md R71). -/

namespace Sys2Proof.Machine

/-! ## The symbolic offsets of R99 (10_state.md section 4) -/

/-- CMD (R30). -/
abbrev offCmd : Nat := 0x000

/-- STATUS (R31). -/
abbrev offStatus : Nat := 0x004

/-- PAD_LEN (R32). -/
abbrev offPadLen : Nat := 0x008

/-- OUT_LEN (R34). -/
abbrev offOutLen : Nat := 0x00C

/-- HEALTH (R35). -/
abbrev offHealth : Nat := 0x010

/-- HEALTH_PCT (R36). -/
abbrev offHealthPct : Nat := 0x014

/-! ## The script forms of R99 -/

/-- `cmd <command>`. -/
def cmdEvent (master : Nat) (i : Instr) : HostEvent := .write master offCmd (encode i)

/-- The word `w` of a byte sequence, a byte past its end being 0x00. -/
def loadWord (bytes : List Byte) (w : Nat) : Word :=
  wordOfBytes (bytes.getD (4 * w) 0) (bytes.getD (4 * w + 1) 0) (bytes.getD (4 * w + 2) 0)
    (bytes.getD (4 * w + 3) 0)

/-- How many words hold `n` bytes: `ceil(n/4)`. -/
def wordCount (n : Nat) : Nat := (n + 3) / 4

/-- `load <buffer>, <bytes>`: one write for each word index `w` with `4w < len(bytes)`. -/
def loadEvents (master : Nat) (b : Buf) (bytes : List Byte) : List HostEvent :=
  (List.range (wordCount bytes.length)).map fun w => .write master (b.base + 4 * w) (loadWord bytes w)

/-- `read <buffer>, <n>`: one read for each word. -/
def readEvents (master : Nat) (b : Buf) (n : Nat) : List HostEvent :=
  (List.range (wordCount n)).map fun w => .read master (b.base + 4 * w)

/-- The bytes 0..n-1 the script keeps of `read <buffer>, <n>`, as the bus answers them in one state. -/
def readBuffer (b : Buf) (n : Nat) (s : State) : List Byte :=
  ((List.range (wordCount n)).flatMap fun w => bytesOfWord (busRead (b.base + 4 * w) s)).take n

/-- `repeat <n> (body)`: the host's own control flow. -/
def repeatEvents (n : Nat) (body : List HostEvent) : List HostEvent :=
  (List.replicate n body).flatten

/-! ## Several masters -/

/-- `events` is an order in which an arbiter may serve the masters' queues: each master's own events keep their
order, and nothing else is fixed (R71). -/
inductive Interleaves : List (List HostEvent) → List HostEvent → Prop where
  /-- Every queue has been served. -/
  | done (queues : List (List HostEvent)) (h : ∀ q ∈ queues, q = []) : Interleaves queues []
  /-- Master `m`, any that has an event left, is served next. -/
  | serve (queues : List (List HostEvent)) (m : Nat) (e : HostEvent) (q events : List HostEvent)
      (h : queues[m]? = some (e :: q)) (rest : Interleaves (queues.set m q) events) :
      Interleaves queues (e :: events)

end Sys2Proof.Machine
end

