-- ==== Sys2Proof/Machine/Assembler.lean ====
section
/-! DEFINITION. The assembler of command words (30_encoding.md R98, R99), on texts. -/

namespace Sys2Proof.Machine

/-- The value of a digit character, `0`..`9`, `a`..`f` or `A`..`F` (log 15). -/
def digitValue (ch : Char) : Option Nat :=
  if '0' ≤ ch ∧ ch ≤ '9' then some (ch.toNat - 48)
  else if 'a' ≤ ch ∧ ch ≤ 'f' then some (ch.toNat - 87)
  else if 'A' ≤ ch ∧ ch ≤ 'F' then some (ch.toNat - 55)
  else none

/-- Read digits of a base after the value `acc`. -/
def parseDigits (base acc : Nat) : Text → Option Nat
  | [] => some acc
  | ch :: rest =>
    match digitValue ch with
    | some d => if d < base then parseDigits base (acc * base + d) rest else none
    | none => none

/-- A number, decimal unless it begins with `0x` (R14, R98). -/
def parseNumber : Text → Option Nat
  | [] => none
  | ['0', 'x'] => none
  | '0' :: 'x' :: digits => parseDigits 16 0 digits
  | digits => parseDigits 10 0 digits

/-- The command of a mnemonic that takes a length (R98). -/
def lengthCommand (mnemonic : Text) (len : Nat) : Option Instr :=
  if mnemonic = "SETSEED".toList then some (.setSeed len)
  else if mnemonic = "NEXTPAD".toList then some (.nextPad len)
  else if mnemonic = "ENCRYPT".toList then some (.encrypt len)
  else if mnemonic = "DECRYPT".toList then some (.decrypt len)
  else none

/-- The command the parts of a line spell. `NEXTPAD` with no operand is `NEXTPAD 32` (R99). -/
def parseCommand : List Text → Option Instr
  | [m] =>
    if m = "RESETSTATE".toList then some .resetState
    else if m = "NEXTPAD".toList then some (.nextPad Config.padDefault)
    else none
  | [m, n] => (parseNumber n).bind (lengthCommand m)
  | _ => none

/-- The word of a line's parts. The assembler refuses a length outside 0..65535 (R98). -/
def assemble (parts : List Text) : Option Word :=
  match parseCommand parts with
  | some i => if i.wellFormed then some (encode i) else none
  | none => none

/-- The parts of a line between its blanks, with `part` the reversed characters of the part in hand (log 15). -/
def splitBlanks (part : Text) : Text → List Text
  | [] => if part.isEmpty then [] else [part.reverse]
  | ch :: rest =>
    if ch = ' ' then
      if part.isEmpty then splitBlanks [] rest else part.reverse :: splitBlanks [] rest
    else splitBlanks (ch :: part) rest

/-- The word of a line. -/
def assembleLine (line : Text) : Option Word := assemble (splitBlanks [] line)

/-- A hexadecimal digit. -/
def hexDigit (v : BitVec 4) : Char :=
  if v.toNat < 10 then Char.ofNat (48 + v.toNat) else Char.ofNat (55 + v.toNat)

/-- A listing prints the word in hexadecimal with 8 digits (R98; log 15). -/
def listing (w : Word) : Text :=
  '0' :: 'x' :: (List.range 8).map fun i => hexDigit (w.extractLsb' (28 - 4 * i) 4)

end Sys2Proof.Machine
end

