-- ==== Sys2Proof/Machine/HostLayer.lean ====
section
/-! DEFINITION. The host-side text layer (45_host_layer.md): base64, and the text-level operations composed of bus
transactions. It is outside the block, and holds no PADGEN state (R5; log 14). -/

namespace Sys2Proof.Machine

/-! ## Base64 (R193, R194) -/

/-- The alphabet character of a value 0..63 (R193). -/
def base64Char (v : Nat) : Char :=
  if v < 26 then Char.ofNat (65 + v)
  else if v < 52 then Char.ofNat (97 + (v - 26))
  else if v < 62 then Char.ofNat (48 + (v - 52))
  else if v = 62 then '+'
  else '/'

/-- The value of an alphabet character; none for any other character, `=` among them (R193, R194). -/
def base64Value (ch : Char) : Option Nat :=
  if 'A' ≤ ch ∧ ch ≤ 'Z' then some (ch.toNat - 65)
  else if 'a' ≤ ch ∧ ch ≤ 'z' then some (ch.toNat - 97 + 26)
  else if '0' ≤ ch ∧ ch ≤ '9' then some (ch.toNat - 48 + 52)
  else if ch = '+' then some 62
  else if ch = '/' then some 63
  else none

/-- `base64_encode(B)` (R193). -/
def base64Encode : List Byte → Text
  | b0 :: b1 :: b2 :: rest =>
    let n := b0.toNat * 65536 + b1.toNat * 256 + b2.toNat
    base64Char (n / 262144) :: base64Char (n / 4096 % 64) :: base64Char (n / 64 % 64) ::
      base64Char (n % 64) :: base64Encode rest
  | [b0, b1] =>
    let n := b0.toNat * 65536 + b1.toNat * 256
    [base64Char (n / 262144), base64Char (n / 4096 % 64), base64Char (n / 64 % 64), '=']
  | [b0] =>
    let n := b0.toNat * 65536
    [base64Char (n / 262144), base64Char (n / 4096 % 64), '=', '=']
  | [] => []

/-- The three bytes of a full group of four characters. -/
def base64Group (c0 c1 c2 c3 : Char) : Option (List Byte) :=
  match base64Value c0, base64Value c1, base64Value c2, base64Value c3 with
  | some v0, some v1, some v2, some v3 =>
    let n := v0 * 262144 + v1 * 4096 + v2 * 64 + v3
    some [BitVec.ofNat 8 (n / 65536), BitVec.ofNat 8 (n / 256), BitVec.ofNat 8 n]
  | _, _, _, _ => none

/-- The one byte of a final group that ends in `==`; its low bits must be 0 (R194). -/
def base64Tail1 (c0 c1 : Char) : Option (List Byte) :=
  match base64Value c0, base64Value c1 with
  | some v0, some v1 => if v1 % 16 = 0 then some [BitVec.ofNat 8 (v0 * 4 + v1 / 16)] else none
  | _, _ => none

/-- The two bytes of a final group that ends in `=`; its low bits must be 0 (R194). -/
def base64Tail2 (c0 c1 c2 : Char) : Option (List Byte) :=
  match base64Value c0, base64Value c1, base64Value c2 with
  | some v0, some v1, some v2 =>
    if v2 % 4 = 0 then
      let n := v0 * 1024 + v1 * 16 + v2 / 4
      some [BitVec.ofNat 8 (n / 256), BitVec.ofNat 8 n]
    else none
  | _, _, _ => none

/-- `base64_decode(T)`: none is the failure InvalidEncoding (R194). -/
def base64Decode : Text → Option (List Byte)
  | [] => some []
  | c0 :: c1 :: c2 :: c3 :: rest =>
    if c3 = '=' then
      if rest.isEmpty then
        if c2 = '=' then base64Tail1 c0 c1 else base64Tail2 c0 c1 c2
      else none
    else
      match base64Group c0 c1 c2 c3, base64Decode rest with
      | some bs, some more => some (bs ++ more)
      | _, _ => none
  | _ => none

/-! ## The host's operations (R195 to R199) -/

/-- The source's error kinds, as the host returns them (R195). -/
inductive HostError where
  /-- `SeedError.TooShort` -/
  | seedTooShort
  /-- `PadError.NotEntangled` -/
  | notEntangled
  /-- `PadError.LengthOutOfRange` -/
  | lengthOutOfRange
  /-- `CipherError.PadTooShort` -/
  | padTooShort
  /-- `CipherError.DecodeMismatch` -/
  | decodeMismatch
  /-- `CipherError.InvalidEncoding` -/
  | invalidEncoding
  deriving DecidableEq, Repr

/-- The PADGEN status code a host error stands for; InvalidEncoding has none (R195). -/
def HostError.status : HostError → Option StatusCode
  | .seedTooShort => some .seedTooShort
  | .notEntangled => some .notEntangled
  | .lengthOutOfRange => some .lengthOutOfRange
  | .padTooShort => some .padTooShort
  | .decodeMismatch => some .decodeMismatch
  | .invalidEncoding => none

/-- What a host operation answers: PADGEN's state after it, and a typed result. -/
abbrev HostOutcome (α : Type) := Outcome (State × Except HostError α)

/-- PAD_BUF and PAD_LEN already hold the pad, as the host can read them (R196). -/
def padHeld (pad : List Byte) (s : State) : Bool :=
  decide ((busRead offPadLen s).toNat = pad.length) && decide (readBuffer .padBuf pad.length s = pad)

/-- `load PAD_BUF, pad ; wr PAD_LEN, len(pad)`. A host with `skip` leaves it out where PADGEN already holds the pad (R196). -/
def loadPad (skip : Bool) (pad : List Byte) (s : State) : Outcome State :=
  if skip && padHeld pad s then .next s
  else andThen (deliverAll (loadEvents 0 .padBuf pad) s) (busWrite offPadLen (BitVec.ofNat 32 pad.length))

/-- Load the pad and the input, and issue one command. -/
def cipherScript (skip : Bool) (i : Instr) (input pad : List Byte) (s : State) : Outcome State :=
  andThen (loadPad skip pad s) fun s1 =>
    andThen (deliverAll (loadEvents 0 .inBuf input) s1) (busWrite offCmd (encode i))

/-- The result bytes: `read OUT_BUF, OUT_LEN`. -/
def readResult (s : State) : List Byte := readBuffer .outBuf (busRead offOutLen s).toNat s

/-- ERR as the host reads it from STATUS (R184). -/
def readErr (s : State) : BitVec 4 := (busRead offStatus s).extractLsb' 0 4

/-- `host_encrypt` (R196). -/
def hostEncrypt (skip : Bool) (message : Text) (pad : List Byte) (s : State) : HostOutcome Text :=
  let m := utf8Encode message
  if m.length > pad.length then .next (s, .error .padTooShort)
  else
    andThen (cipherScript skip (.encrypt m.length) m pad s) fun t =>
      .next (t, .ok (base64Encode (readResult t)))

/-- `host_decrypt` (R197). -/
def hostDecrypt (skip : Bool) (ciphertext : Text) (pad : List Byte) (s : State) : HostOutcome Text :=
  match base64Decode ciphertext with
  | none => .next (s, .error .invalidEncoding)
  | some c =>
    if c.length > pad.length then .next (s, .error .padTooShort)
    else
      andThen (cipherScript skip (.decrypt c.length) c pad s) fun t =>
        if readErr t = StatusCode.decodeMismatch.code then .next (t, .error .decodeMismatch)
        else
          match utf8Decode (readResult t) with
          | some text => .next (t, .ok text)
          | none => .next (t, .error .decodeMismatch)

/-- `host_nextPad` (R198). -/
def hostNextPad (length : Nat) (s : State) : HostOutcome (List Byte) :=
  if length ≥ Config.lenLimit then .next (s, .error .lengthOutOfRange)
  else
    andThen (busWrite offCmd (encode (.nextPad length)) s) fun t =>
      if readErr t = StatusCode.notEntangled.code then .next (t, .error .notEntangled)
      else if readErr t = StatusCode.lengthOutOfRange.code then .next (t, .error .lengthOutOfRange)
      else .next (t, .ok (readBuffer .padBuf length t))

/-- `host_nextPad()`, whose length is 32 by default (R198, PAD_DEFAULT of R7). -/
def hostNextPadDefault (s : State) : HostOutcome (List Byte) := hostNextPad Config.padDefault s

/-- `host_setSeed` (R199). -/
def hostSetSeed (raw : List Byte) (s : State) : HostOutcome Unit :=
  if raw.length < Config.seedMin then .next (s, .error .seedTooShort)
  else if raw.length > Config.seedMax then .next (s, .error .lengthOutOfRange)
  else
    andThen (deliverAll (loadEvents 0 .inBuf raw) s) fun t =>
      andThen (busWrite offCmd (encode (.setSeed raw.length)) t) fun u => .next (u, .ok ())

/-- `host_resetState()` is `cmd RESETSTATE` (R199). -/
def hostResetState (s : State) : Outcome State := busWrite offCmd (encode .resetState) s

/-- What `getHealth()` returns (R183). -/
structure HealthReport where
  counter : Nat
  padsRemaining : Nat
  /-- `healthPercent`, in units of 1/256 percent: `HEALTH_PCT[14:0]`. -/
  percentX256 : Nat
  /-- "healthy", "warning" or "critical"; none for HSTATUS 3, which is never produced. -/
  status : Option HealthStatus
  deriving DecidableEq, Repr

/-- The health class of an HSTATUS value (R35). -/
def healthOfCode (v : BitVec 2) : Option HealthStatus :=
  if v = 0 then some .healthy
  else if v = 1 then some .warning
  else if v = 2 then some .critical
  else none

/-- `host_getHealth()`: one read of HEALTH and one of HEALTH_PCT (R183, R199). -/
def hostGetHealth (s : State) : HealthReport where
  counter := ((busRead offHealth s).extractLsb' 24 8).toNat
  padsRemaining := ((busRead offHealth s).extractLsb' 0 9).toNat
  percentX256 := ((busRead offHealthPct s).extractLsb' 0 15).toNat
  status := healthOfCode ((busRead offHealth s).extractLsb' 16 2)

/-- What `state()` returns (R184). -/
structure StateReport where
  hasSecret : Bool
  counter : Nat
  deriving DecidableEq, Repr

/-- `state()`: one read of STATUS (R184). -/
def hostState (s : State) : StateReport where
  hasSecret := (busRead offStatus s).getLsbD 8
  counter := ((busRead offStatus s).extractLsb' 16 8).toNat

end Sys2Proof.Machine
end

