-- ==== Sys2Proof/Safety.lean ====
section
/-! DEFINITION. What holds of PADGEN in every state a run reaches, and the words the claims are stated in. -/

namespace Sys2Proof.Machine

/-! ## The invariant -/

/-- `HAS_SECRET = 0` implies `COUNTER = 0` and `SECRET` is 32 zero bytes (R23). -/
def State.SecretPaired (s : State) : Prop :=
  s.hasSecret = false → s.counter = 0 ∧ s.secret = Secret.zero

/-- `PAD_LEN <= 1024` and `OUT_LEN <= 1024` (R24). -/
def State.LengthsLegal (s : State) : Prop :=
  s.padLen.toNat ≤ 1024 ∧ s.outLen.toNat ≤ 1024

/-- `ERR` is one of 0, 1, 2, 3, 4, 5, 7 (R210, I7). -/
def State.ErrLegal (s : State) : Prop :=
  s.err = 0 ∨ s.err = 1 ∨ s.err = 2 ∨ s.err = 3 ∨ s.err = 4 ∨ s.err = 5 ∨ s.err = 7

/-- The memory is in its canonical form, and lists offsets of the three buffers only (R38; log 4). -/
def State.MemLegal (s : State) : Prop :=
  s.mem.wf ∧ ∀ c ∈ s.mem, 0x400 ≤ c.1 ∧ c.1 < 0x1000

/-- The invariant of the machine: it holds at reset and every step keeps it. -/
def State.Inv (s : State) : Prop := s.SecretPaired ∧ s.LengthsLegal ∧ s.ErrLegal

/-! ## Runs -/

/-- A run of `n` steps that ends in a state. On PADGEN every run is one (R73, R220). -/
def SafeRun (n : Nat) (s : State) : Prop := ∃ t, Host.Core.run Sys2Proof.core n s = .next t

/-- The word of a CMD write (R30, R61); none for any other event. -/
def HostEvent.command? : HostEvent → Option Word
  | .write _ off w => if wordOffset off = 0 then some w else none
  | .read _ _ => none
  | .reset => none

/-- The event runs this command. -/
def HostEvent.Runs (e : HostEvent) (i : Instr) : Prop := ∃ w, e.command? = some w ∧ decode w = .ok i

/-- The event is a CMD write that runs a NEXTPAD. -/
def HostEvent.isNextPad (e : HostEvent) : Bool :=
  match e.command? with
  | some w =>
    match decode w with
    | .ok (.nextPad _) => true
    | _ => false
  | none => false

/-- The event neither resets PADGEN nor runs SETSEED or RESETSTATE: the Secret stays (R151). -/
def HostEvent.KeepsSecret (e : HostEvent) : Prop :=
  e ≠ .reset ∧ (∀ len, ¬ e.Runs (.setSeed len)) ∧ ¬ e.Runs .resetState

/-- How many NEXTPAD commands finish `OK` in a run of `n` steps: the pads issued. -/
def padsIssued : Nat → State → Nat
  | 0, _ => 0
  | n + 1, s =>
    match step s with
    | .next t =>
      (match s.pending with
        | e :: _ => if e.isNextPad && t.err == 0 then 1 else 0
        | [] => 0) + padsIssued n t
    | .fault _ => 0
    | .refused _ => 0

/-- The CMD writes that issue these commands, from one master. -/
def commandEvents (master : Nat) (is : List Instr) : List HostEvent := is.map (cmdEvent master)

/-- The event without its master's number. -/
def HostEvent.anonymous : HostEvent → HostEvent
  | .read _ off => .read 0 off
  | .write _ off v => .write 0 off v
  | .reset => .reset

/-! ## Two states -/

/-- Both hold what pads are derived from: `K`, `REDUCE`, `SECRET`, `HAS_SECRET` and `COUNTER` (R130, R136, R246). -/
def State.SameKey (s t : State) : Prop :=
  s.build = t.build ∧ s.secret = t.secret ∧ s.hasSecret = t.hasSecret ∧ s.counter = t.counter

/-- Both hold the same in everything but the buffers, the epoch of their draws, and the host's lists. -/
def State.SameRegisters (s t : State) : Prop :=
  s.SameKey t ∧ s.err = t.err ∧ s.padLen = t.padLen ∧ s.outLen = t.outLen

/-! ## UTF-8, said by R163's table -/

/-- The bytes are one row of R163's table: a well-formed UTF-8 sequence. -/
def Utf8Sequence (q : List Nat) : Prop :=
  (∃ a, q = [a] ∧ a ≤ 0x7F) ∨
  (∃ a b, q = [a, b] ∧ 0xC2 ≤ a ∧ a ≤ 0xDF ∧ 0x80 ≤ b ∧ b ≤ 0xBF) ∨
  (∃ b c, q = [0xE0, b, c] ∧ 0xA0 ≤ b ∧ b ≤ 0xBF ∧ 0x80 ≤ c ∧ c ≤ 0xBF) ∨
  (∃ a b c, q = [a, b, c] ∧ 0xE1 ≤ a ∧ a ≤ 0xEC ∧ 0x80 ≤ b ∧ b ≤ 0xBF ∧ 0x80 ≤ c ∧ c ≤ 0xBF) ∨
  (∃ b c, q = [0xED, b, c] ∧ 0x80 ≤ b ∧ b ≤ 0x9F ∧ 0x80 ≤ c ∧ c ≤ 0xBF) ∨
  (∃ a b c, q = [a, b, c] ∧ 0xEE ≤ a ∧ a ≤ 0xEF ∧ 0x80 ≤ b ∧ b ≤ 0xBF ∧ 0x80 ≤ c ∧ c ≤ 0xBF) ∨
  (∃ b c d, q = [0xF0, b, c, d] ∧ 0x90 ≤ b ∧ b ≤ 0xBF ∧ 0x80 ≤ c ∧ c ≤ 0xBF ∧ 0x80 ≤ d ∧ d ≤ 0xBF) ∨
  (∃ a b c d, q = [a, b, c, d] ∧ 0xF1 ≤ a ∧ a ≤ 0xF3 ∧ 0x80 ≤ b ∧ b ≤ 0xBF ∧ 0x80 ≤ c ∧ c ≤ 0xBF ∧
    0x80 ≤ d ∧ d ≤ 0xBF) ∨
  (∃ b c d, q = [0xF4, b, c, d] ∧ 0x80 ≤ b ∧ b ≤ 0x8F ∧ 0x80 ≤ c ∧ c ≤ 0xBF ∧ 0x80 ≤ d ∧ d ≤ 0xBF)

/-! ## Concrete values of the spec's examples -/

/-- The bytes 00 01 .. 0F, the raw seed of R112's example. -/
def seedBytes : List Byte := (List.range 16).map (BitVec.ofNat 8)

/-- `s1` of 95_test_vectors.md: 00 01 .. 0F and 16 zero bytes. -/
def exampleSecret : Secret := Vector.ofFn fun i => if i.val < 16 then BitVec.ofNat 8 i.val else 0

end Sys2Proof.Machine
end

