-- ==== Sys2Proof/Certificates/Slice0/Obligations.lean ====
section
/-! DEFINITION. The statements for the provers, from the spec's numbered rules. -/

open Sys2Proof Sys2Proof.Machine

/-! ## Encoding (30_encoding.md) -/

/-- Decoding the encoder's word of a well-formed command gives the command, LEN at every value. -/
def Obligations.DecodeEncodeRoundTrip : Prop :=
  ∀ i : Instr, i.wellFormed = true → decode (encode i) = .ok i

/-- A word that decodes to a command is the encoder's word of it: no second spelling, no bit dropped. -/
def Obligations.EncodeDecodeRoundTrip : Prop :=
  ∀ (w : Word) (i : Instr), decode w = .ok i → encode i = w ∧ i.wellFormed = true

/-- R94, on all 2^32 words: the decoder gives a command exactly for the words of its row of the opcode table, with LEN
their upper half, and ILLEGAL exactly for the words of no row. -/
def Obligations.DecodeMatchesOpcodeTable : Prop :=
  ∀ w : Word,
    (∀ len, decode w = .ok (.setSeed len) ↔ w &&& 0x0000FFFF = 0x00000001 ∧ w.toNat / 65536 = len) ∧
    (∀ len, decode w = .ok (.nextPad len) ↔ w &&& 0x0000FFFF = 0x00000002 ∧ w.toNat / 65536 = len) ∧
    (∀ len, decode w = .ok (.encrypt len) ↔ w &&& 0x0000FFFF = 0x00000003 ∧ w.toNat / 65536 = len) ∧
    (∀ len, decode w = .ok (.decrypt len) ↔ w &&& 0x0000FFFF = 0x00000004 ∧ w.toNat / 65536 = len) ∧
    (decode w = .ok .resetState ↔ w &&& 0xFFFFFFFF = 0x00000005) ∧
    ((∃ c, decode w = .error c) ↔
      w &&& 0x0000FFFF ≠ 0x00000001 ∧ w &&& 0x0000FFFF ≠ 0x00000002 ∧ w &&& 0x0000FFFF ≠ 0x00000003 ∧
      w &&& 0x0000FFFF ≠ 0x00000004 ∧ w &&& 0xFFFFFFFF ≠ 0x00000005)

/-- The words of 95_test_vectors.md, section 2.2, decode as listed there. -/
def Obligations.DecodeSampleWords : Prop :=
  decode 0x00100001 = .ok (.setSeed 16) ∧
  decode 0x00200002 = .ok (.nextPad 32) ∧
  decode 0x000B0003 = .ok (.encrypt 11) ∧
  decode 0x000B0004 = .ok (.decrypt 11) ∧
  decode 0x00000005 = .ok .resetState ∧
  decode 0xFFFF0002 = .ok (.nextPad 65535) ∧
  decode 0x00000000 = .error .reservedOpcode ∧
  decode 0x00200006 = .error .reservedOpcode ∧
  decode 0x00200012 = .error .reservedBits ∧
  decode 0x00010005 = .error .resetStateLength

/-- R98: the assembler's words and its refusal of a length outside 0..65535; the default NEXTPAD of R99. The last clause
is the model's choice (log 15): a listing, in which R98 asks for 8 hexadecimal digits, is `0x` and eight capital digits,
and reads back as the word. -/
def Obligations.AssemblerSpellsCommandWords : Prop :=
  (∀ (num : Text) (len : Nat), parseNumber num = some len →
    (len ≤ 65535 →
      assemble ["SETSEED".toList, num] = some (BitVec.ofNat 32 (len * 65536 + 0x1)) ∧
      assemble ["NEXTPAD".toList, num] = some (BitVec.ofNat 32 (len * 65536 + 0x2)) ∧
      assemble ["ENCRYPT".toList, num] = some (BitVec.ofNat 32 (len * 65536 + 0x3)) ∧
      assemble ["DECRYPT".toList, num] = some (BitVec.ofNat 32 (len * 65536 + 0x4))) ∧
    (65535 < len →
      assemble ["SETSEED".toList, num] = none ∧ assemble ["NEXTPAD".toList, num] = none ∧
      assemble ["ENCRYPT".toList, num] = none ∧ assemble ["DECRYPT".toList, num] = none)) ∧
  assemble ["RESETSTATE".toList] = some 0x00000005 ∧
  assemble ["NEXTPAD".toList] = some 0x00200002 ∧
  (∀ w : Word, (listing w).length = 10 ∧ parseNumber (listing w) = some w.toNat ∧
    ∃ digits, listing w = '0' :: 'x' :: digits ∧ ∀ ch ∈ digits, ch ∈ "0123456789ABCDEF".toList)

/-- The assembler reads a number back from its decimal digits, and from `0x` and its hexadecimal digits (R14, R98). These
are lower-case digits, and that the assembler takes either case is the model's choice (log 15); the capitals the spec
writes are in the listing clause of AssemblerSpellsCommandWords. -/
def Obligations.AssemblerReadsNumbers : Prop :=
  ∀ n : Nat, parseNumber (Nat.toDigits 10 n) = some n ∧ parseNumber ('0' :: 'x' :: Nat.toDigits 16 n) = some n

/-! ## The step -/

/-- A step with a CMD write first among the pending events runs the decoded command, the write taken off the list. That
`withFetchWord` places such a write, by master 0 before every other event, is the model's choice (log 2). -/
def Obligations.StepRunsDecodedCommand : Prop :=
  ∀ (s : State) (w : Word) (i : Instr), decode w = .ok i →
    (∀ (master off : Nat) (rest : List HostEvent), s.pending = .write master off w :: rest →
      off &&& 0xFFC = 0 → step s = exec i { s with pending := rest }) ∧
    step (s.withFetchWord 32 w.toNat) = exec i s

/-- R95: a CMD write of an illegal word sets ERR to 7 and changes nothing else; the spec's example is the word 0. -/
def Obligations.IllegalWordSetsErrOnly : Prop :=
  (∀ (s : State) (master off : Nat) (w : Word) (rest : List HostEvent),
    s.pending = .write master off w :: rest → off &&& 0xFFC = 0 →
    (w.toNat / 16 % 4096 ≠ 0 ∨ w.toNat % 16 = 0 ∨ 6 ≤ w.toNat % 16 ∨
      (w.toNat % 16 = 5 ∧ w.toNat / 65536 ≠ 0)) →
    step s = .next { s with pending := rest, err := 7 }) ∧
  (∀ s : State, ∃ t, busWrite 0x000 0x00000000 s = .next t ∧
    (busRead 0x004 t).extractLsb' 0 4 = 7 ∧
    (busRead 0x004 t).extractLsb' 4 28 = (busRead 0x004 s).extractLsb' 4 28)

/-- Every command and every run completes: PADGEN has no trap and no stuck state. -/
def Obligations.EveryCommandAndRunCompletes : Prop :=
  (∀ (i : Instr) (s : State), ∃ t, exec i s = .next t) ∧ (∀ (n : Nat) (s : State), SafeRun n s)

/-- A run over the first pending events is their delivery one after another, and leaves the others pending. The list and
its order stand for the one total order of R70: the model's choice (log 1). -/
def Obligations.RunServesEventsInOrder : Prop :=
  ∀ (s : State) (es rest : List HostEvent), s.pending = es ++ rest →
    Host.Core.run Sys2Proof.core es.length s = deliverAll es { s with pending := rest }

/-! ## SETSEED and RESETSTATE (40_seedstore.md) -/

/-- R112: the encoding, the two errors, the success with all it leaves unchanged, and the example. -/
def Obligations.SetSeedByRule : Prop :=
  (∀ (len : Nat) (s : State),
    (len ≤ 65535 → encode (.setSeed len) = BitVec.ofNat 32 (len * 65536 + 1)) ∧
    (1024 < len → exec (.setSeed len) s = .next { s with err := 3 }) ∧
    (len < 16 → exec (.setSeed len) s = .next { s with err := 1 }) ∧
    (16 ≤ len → len ≤ 1024 →
      exec (.setSeed len) s = .next
        { s with
          secret := reduce s.build.reduce (bufReadBytes .inBuf len s), hasSecret := true, counter := 0, err := 0 })) ∧
  (∀ s : State, s.build.reduce = .xorFold → bufReadBytes .inBuf 16 s = seedBytes →
    ∃ t, busWrite 0x000 0x00100001 s = .next t ∧ t.secret = exampleSecret ∧ t.hasSecret = true ∧
      t.counter = 0 ∧ t.err = 0 ∧ busRead 0x004 t = 0x00000100)

/-- R120: the encoding and its refused neighbours, the effect with all it leaves unchanged, no change but ERR when
already unentangled, the STATUS and HEALTH reads of the example (from any state), and that NEXTPAD then finishes
NOT_ENTANGLED until the next successful SETSEED. -/
def Obligations.ResetStateByRule : Prop :=
  encode .resetState = 0x00000005 ∧
  (∀ w : Word, w.toNat % 65536 = 5 → w ≠ 0x00000005 → ∃ c, decode w = .error c) ∧
  (∀ s : State, exec .resetState s = .next
    { s with secret := Vector.replicate 32 0, hasSecret := false, counter := 0, err := 0 }) ∧
  (∀ s : State, s.SecretPaired → s.hasSecret = false → exec .resetState s = .next { s with err := 0 }) ∧
  (∀ s t : State, exec .resetState s = .next t → busRead 0x004 t = 0x00000000 ∧ busRead 0x010 t = 0x00000100) ∧
  (∀ (s t u : State) (es : List HostEvent), exec .resetState s = .next t →
    (∀ e ∈ es, ∀ len, e.Runs (.setSeed len) → ¬ (16 ≤ len ∧ len ≤ 1024)) →
    deliverAll es t = .next u → ∀ len, exec (.nextPad len) u = .next { u with err := 2 })

/-- R111: XOR_FOLD starts from 32 zero bytes and folds byte `i` into index `i mod 32`; a build with it reduces so. -/
def Obligations.XorFoldByRule : Prop :=
  (∀ raw : List Byte, reduce .xorFold raw = xorFold raw) ∧
  xorFold [] = Vector.replicate 32 0 ∧
  (∀ (raw : List Byte) (b : Byte) (k : Fin 32),
    (xorFold (raw ++ [b])).get k =
      if k.val = raw.length % 32 then (xorFold raw).get k ^^^ b else (xorFold raw).get k)

/-- What the spec infers from R111: changing `raw[j]` by `d` changes `S[j mod 32]` by `d` (R111, "derived: from this
rule"), so XOR_FOLD is sensitive to every input byte; and its collisions (R115), none of which SETSEED detects. -/
def Obligations.XorFoldConsequences : Prop :=
  (∀ (raw : List Byte) (j : Nat) (d : Byte) (k : Fin 32), j < raw.length →
    (xorFold (raw.set j (raw.getD j 0 ^^^ d))).get k =
      if k.val = j % 32 then (xorFold raw).get k ^^^ d else (xorFold raw).get k) ∧
  (∀ (raw : List Byte) (j : Nat) (v : Byte), j < raw.length → v ≠ raw.getD j 0 →
    xorFold (raw.set j v) ≠ xorFold raw) ∧
  (∀ (raw : List Byte) (j : Nat), j + 32 < raw.length →
    xorFold ((raw.set j (raw.getD (j + 32) 0)).set (j + 32) (raw.getD j 0)) = xorFold raw) ∧
  (∀ raw : List Byte, xorFold (raw ++ List.replicate 32 0) = xorFold raw) ∧
  (∀ (raw : List Byte) (k : Fin 32), raw.length ≤ k.val → (xorFold raw).get k = 0) ∧
  (∀ (len : Nat) (s : State), 16 ≤ len → len ≤ 1024 → ∃ t, exec (.setSeed len) s = .next t ∧ t.err = 0)

/-- A SHA256 build reduces by SHA-256 (R116), as the model presumes it from FIPS 180-4 (log 6): the Secret of the raw
seed 00 01 .. 0F is the spec's digest (S11). -/
def Obligations.SetSeedOnSha256Build : Prop :=
  ∀ s : State, s.build.reduce = .sha256 → bufReadBytes .inBuf 16 s = seedBytes →
    ∃ t, exec (.setSeed 16) s = .next t ∧ t.hasSecret = true ∧ t.counter = 0 ∧ t.err = 0 ∧
      t.secret.toList =
        [0xBE, 0x45, 0xCB, 0x26, 0x05, 0xBF, 0x36, 0xBE, 0xBD, 0xE6, 0x84, 0x84, 0x1A, 0x28, 0xF0, 0xFD,
         0x43, 0xC6, 0x98, 0x50, 0xA3, 0xDC, 0xE5, 0xFE, 0xDB, 0xA6, 0x99, 0x28, 0xEE, 0x3A, 0x89, 0x91]

/-- What the spec infers from R112 (R114): equal raw seeds give equal Secrets and Counter 0; SETSEED alone sets
HAS_SECRET; running SETSEED twice leaves what running it once leaves. -/
def Obligations.SetSeedConsequences : Prop :=
  (∀ (len : Nat) (s s' : State), s.build = s'.build → 16 ≤ len → len ≤ 1024 →
    bufReadBytes .inBuf len s = bufReadBytes .inBuf len s' →
    ∃ t t', exec (.setSeed len) s = .next t ∧ exec (.setSeed len) s' = .next t' ∧
      t.secret = t'.secret ∧ t.counter = 0 ∧ t'.counter = 0) ∧
  (∀ s t : State, step s = .next t → s.hasSecret = false → t.hasSecret = true →
    ∃ e rest len, s.pending = e :: rest ∧ e.Runs (.setSeed len) ∧ 16 ≤ len ∧ len ≤ 1024) ∧
  (∀ (len : Nat) (s t u : State), exec (.setSeed len) s = .next t → exec (.setSeed len) t = .next u → u = t)

/-! ## NEXTPAD and the counter (41_keystream.md, 42_counter.md) -/

/-- R133: the encoding, the two errors in their order, the success with all it leaves unchanged, and the example. -/
def Obligations.NextPadByRule : Prop :=
  (∀ (len : Nat) (s : State),
    (len ≤ 65535 → encode (.nextPad len) = BitVec.ofNat 32 (len * 65536 + 2)) ∧
    (s.hasSecret = false → exec (.nextPad len) s = .next { s with err := 2 }) ∧
    (s.hasSecret = true → len < 1 ∨ 1024 < len → exec (.nextPad len) s = .next { s with err := 3 }) ∧
    (s.hasSecret = true → 1 ≤ len → len ≤ 1024 → ∃ t, exec (.nextPad len) s = .next t ∧
      t = { s with mem := t.mem, padLen := t.padLen, counter := t.counter, err := 0 } ∧
      t.padLen.toNat = len ∧ t.counter.toNat = (s.counter.toNat + 1) % 256 ∧
      (∀ i < len, (bufRead .padBuf i t).toNat =
        ((s.secret.get ⟨i % 32, Nat.mod_lt i (Nat.zero_lt_succ 31)⟩).toNat + s.counter.toNat +
          i * s.build.k.toNat) % 256) ∧
      (∀ a, ¬ (0x800 ≤ a ∧ a < 0x800 + len) → t.byteAt a = s.byteAt a))) ∧
  (∀ s : State, s.build.k = 7 → s.hasSecret = true → s.secret = exampleSecret → s.counter = 0 →
    ∃ t, busWrite 0x000 0x00200002 s = .next t ∧
      bufReadBytes .padBuf 32 t =
        [0x00, 0x08, 0x10, 0x18, 0x20, 0x28, 0x30, 0x38, 0x40, 0x48, 0x50, 0x58, 0x60, 0x68, 0x70, 0x78,
         0x70, 0x77, 0x7E, 0x85, 0x8C, 0x93, 0x9A, 0xA1, 0xA8, 0xAF, 0xB6, 0xBD, 0xC4, 0xCB, 0xD2, 0xD9] ∧
      t.padLen = 32 ∧ t.counter = 1 ∧ t.err = 0)

/-- The laws of derive the spec infers from R130 (R134), for every K, Secret and counter. -/
def Obligations.DeriveLaws : Prop :=
  ∀ (k : Byte) (S : Secret) (c : BitVec 8),
    (∀ l1 l2, l1 ≤ l2 → derive k S c l1 = (derive k S c l2).take l1) ∧
    (∀ (d : Byte) (len i : Nat), i < len →
      (derive k S (c + d) len).getD i 0 = (derive k S c len).getD i 0 + d) ∧
    (∀ (c' : BitVec 8) (len i : Nat), c ≠ c' → i < len →
      (derive k S c' len).getD i 0 - (derive k S c len).getD i 0 = c' - c ∧
      (derive k S c len).getD i 0 ≠ (derive k S c' len).getD i 0) ∧
    (∀ len i, i + 256 < len → (derive k S c len).getD (i + 256) 0 = (derive k S c len).getD i 0) ∧
    (∀ p, IsLeast { q | 0 < q ∧ ∀ i, padByte k S c (i + q) = padByte k S c i } p →
      p ∣ Nat.lcm 32 (256 / Nat.gcd k.toNat 256)) ∧
    Nat.lcm 32 (256 / Nat.gcd k.toNat 256) ≤ 256 ∧
    advance 255 = 0

/-- The complete list of writers of COUNTER, which the spec infers (R151), over every host event. -/
def Obligations.CounterWriters : Prop :=
  ∀ (s t : State) (e : HostEvent) (rest : List HostEvent), s.pending = e :: rest → step s = .next t →
    (∀ len, e.Runs (.nextPad len) → t.err = 0 → t.counter.toNat = (s.counter.toNat + 1) % 256) ∧
    (∀ len, e.Runs (.setSeed len) → t.err = 0 → t.counter = 0) ∧
    (e.Runs .resetState → t.counter = 0) ∧
    (e = .reset → t.counter = 0) ∧
    (∀ len, e.Runs (.nextPad len) ∨ e.Runs (.setSeed len) → t.err ≠ 0 → t.counter = s.counter) ∧
    ((∀ len, ¬ e.Runs (.nextPad len) ∧ ¬ e.Runs (.setSeed len)) → ¬ e.Runs .resetState → e ≠ .reset →
      t.counter = s.counter)

/-- R22: only SETSEED, NEXTPAD, RESETSTATE and hardware reset write SECRET or COUNTER (NEXTPAD never SECRET), and no bus
read depends on SECRET. -/
def Obligations.SecretIsOwnedAndUnreadable : Prop :=
  (∀ s t : State, step s = .next t → (t.secret ≠ s.secret ∨ t.counter ≠ s.counter) →
    ∃ e rest, s.pending = e :: rest ∧
      (e = .reset ∨ (∃ len, e.Runs (.setSeed len)) ∨ e.Runs .resetState ∨
        (t.secret = s.secret ∧ ∃ len, e.Runs (.nextPad len)))) ∧
  (∀ (s : State) (S : Secret) (off : Nat), busRead off { s with secret := S } = busRead off s)

/-- The counter law the spec infers from R151 (R153): after a SETSEED that finishes OK, and any run in which no event
replaces the Secret, COUNTER is the number of pads issued, modulo 256; failing NEXTPAD commands are not counted. -/
def Obligations.CounterCountsPadsIssued : Prop :=
  ∀ (s0 s t : State) (e : HostEvent) (rest : List HostEvent) (len n : Nat),
    s0.pending = e :: rest → e.Runs (.setSeed len) → step s0 = .next s → s.err = 0 →
    (∀ e ∈ rest, e.KeepsSecret) → Host.Core.run Sys2Proof.core n s = .next t →
    t.counter.toNat = padsIssued n s % 256 ∧ t.secret = s.secret

/-- The spec's inference R136: after any number of NEXTPAD commands of one legal length, the next pad is derived with the
counter that many further on, modulo 256: the n-th and the (n+256)-th pad are equal. -/
def Obligations.PadSequenceRepeatsAfter256 : Prop :=
  (∀ (s : State) (master len n : Nat), s.hasSecret = true → 1 ≤ len → len ≤ 1024 →
    ∃ t, deliverAll (repeatEvents (n + 1) [cmdEvent master (.nextPad len)]) s = .next t ∧
      bufReadBytes .padBuf len t =
        derive s.build.k s.secret (BitVec.ofNat 8 ((s.counter.toNat + n) % 256)) len) ∧
  (∀ (s t u : State) (master len n : Nat), s.hasSecret = true → 1 ≤ len → len ≤ 1024 →
    deliverAll (repeatEvents (n + 1) [cmdEvent master (.nextPad len)]) s = .next t →
    deliverAll (repeatEvents (n + 257) [cmdEvent master (.nextPad len)]) s = .next u →
    bufReadBytes .padBuf len t = bufReadBytes .padBuf len u)

/-- The spec's inferences R136 and R246: two PADGENs of one build with equal Secret, flag and Counter, and equal IN_BUF,
stay equal in these over any one command sequence, and every further NEXTPAD gives both the same status and, when it
succeeds, the same pad. -/
def Obligations.LockstepDeterminism : Prop :=
  ∀ (is : List Instr) (m m' : Nat) (s s' : State), s.SameKey s' →
    bufReadBytes .inBuf 1024 s = bufReadBytes .inBuf 1024 s' →
    ∃ t t', deliverAll (commandEvents m is) s = .next t ∧ deliverAll (commandEvents m' is) s' = .next t' ∧
      t.SameKey t' ∧
      (∀ (len : Nat) (u u' : State), exec (.nextPad len) t = .next u → exec (.nextPad len) t' = .next u' →
        u.err = u'.err ∧ u.SameKey u' ∧
        (u.err = 0 → bufReadBytes .padBuf len u = bufReadBytes .padBuf len u'))

/-! ## ENCRYPT and DECRYPT (43_cipher.md) -/

/-- R160: the encoding, the error, the success with all it leaves unchanged, and the example. -/
def Obligations.EncryptByRule : Prop :=
  (∀ (len : Nat) (s : State),
    (len ≤ 65535 → encode (.encrypt len) = BitVec.ofNat 32 (len * 65536 + 3)) ∧
    (s.padLen.toNat < len → exec (.encrypt len) s = .next { s with outLen := 0, err := 4 }) ∧
    (s.LengthsLegal → 1024 < len → exec (.encrypt len) s = .next { s with outLen := 0, err := 4 }) ∧
    (len ≤ s.padLen.toNat → ∃ t, exec (.encrypt len) s = .next t ∧
      t = { s with mem := t.mem, outLen := t.outLen, err := 0 } ∧ t.outLen.toNat = len ∧
      (∀ i < len, bufRead .outBuf i t = bufRead .inBuf i s ^^^ bufRead .padBuf i s) ∧
      (∀ a, ¬ (0xC00 ≤ a ∧ a < 0xC00 + len) → t.byteAt a = s.byteAt a))) ∧
  (∀ s : State, s.padLen = 32 →
    bufReadBytes .inBuf 11 s = [0x68, 0x65, 0x6C, 0x6C, 0x6F, 0x20, 0x77, 0x6F, 0x72, 0x6C, 0x64] →
    bufReadBytes .padBuf 11 s = [0x00, 0x08, 0x10, 0x18, 0x20, 0x28, 0x30, 0x38, 0x40, 0x48, 0x50] →
    ∃ t, busWrite 0x000 0x000B0003 s = .next t ∧
      bufReadBytes .outBuf 11 t = [0x68, 0x6D, 0x7C, 0x74, 0x4F, 0x08, 0x47, 0x57, 0x32, 0x24, 0x34] ∧
      t.outLen = 11 ∧ t.err = 0)

/-- R161: the encoding, the two errors in their order, the success with all it leaves unchanged, and both examples. -/
def Obligations.DecryptByRule : Prop :=
  (∀ (len : Nat) (s : State) (M : List Byte),
    M = (List.range len).map (fun i => bufRead .inBuf i s ^^^ bufRead .padBuf i s) →
    (len ≤ 65535 → encode (.decrypt len) = BitVec.ofNat 32 (len * 65536 + 4)) ∧
    (s.padLen.toNat < len → exec (.decrypt len) s = .next { s with outLen := 0, err := 4 }) ∧
    (len ≤ s.padLen.toNat → utf8WellFormed M = false →
      exec (.decrypt len) s = .next { s with outLen := 0, err := 5 }) ∧
    (len ≤ s.padLen.toNat → utf8WellFormed M = true → ∃ t, exec (.decrypt len) s = .next t ∧
      t = { s with mem := t.mem, outLen := t.outLen, err := 0 } ∧ t.outLen.toNat = len ∧
      bufReadBytes .outBuf len t = M ∧
      (∀ a, ¬ (0xC00 ≤ a ∧ a < 0xC00 + len) → t.byteAt a = s.byteAt a))) ∧
  (∀ s : State, s.padLen = 32 →
    bufReadBytes .inBuf 11 s = [0x68, 0x6D, 0x7C, 0x74, 0x4F, 0x08, 0x47, 0x57, 0x32, 0x24, 0x34] →
    bufReadBytes .padBuf 11 s = [0x00, 0x08, 0x10, 0x18, 0x20, 0x28, 0x30, 0x38, 0x40, 0x48, 0x50] →
    ∃ t, busWrite 0x000 0x000B0004 s = .next t ∧
      bufReadBytes .outBuf 11 t = utf8Encode "hello world".toList ∧ t.outLen = 11 ∧ t.err = 0) ∧
  (derive 7 exampleSecret 1 6 = [0x01, 0x09, 0x11, 0x19, 0x21, 0x29] ∧
    derive 7 exampleSecret 2 6 = [0x02, 0x0A, 0x12, 0x1A, 0x22, 0x2A] ∧
    xorCombine [0x68, 0xC3, 0xA9, 0x6C, 0x6C, 0x6F] (derive 7 exampleSecret 1 6) =
      [0x69, 0xCA, 0xB8, 0x75, 0x4D, 0x46] ∧
    xorCombine [0x69, 0xCA, 0xB8, 0x75, 0x4D, 0x46] (derive 7 exampleSecret 2 6) =
      [0x6B, 0xC0, 0xAA, 0x6F, 0x6F, 0x6C]) ∧
  (∀ s : State, 6 ≤ s.padLen.toNat →
    bufReadBytes .inBuf 6 s = [0x69, 0xCA, 0xB8, 0x75, 0x4D, 0x46] →
    bufReadBytes .padBuf 6 s = derive 7 exampleSecret 2 6 →
    busWrite 0x000 0x00060004 s = .next { s with outLen := 0, err := 5 })

/-- What the spec infers from R160 and R161 (R162): the result registers after any ENCRYPT or DECRYPT, and that no
other command writes them. -/
def Obligations.CipherResultRegisters : Prop :=
  (∀ (len : Nat) (i : Instr) (s t : State), i = .encrypt len ∨ i = .decrypt len → s.LengthsLegal →
    exec i s = .next t →
    (t.err = 0 → t.outLen.toNat = len ∧
      ∀ j < len, bufRead .outBuf j t = bufRead .inBuf j s ^^^ bufRead .padBuf j s) ∧
    (t.err ≠ 0 → t.outLen = 0 ∧ ∀ a, t.byteAt a = s.byteAt a) ∧
    (∀ j, t.outLen.toNat ≤ j → bufRead .outBuf j t = bufRead .outBuf j s) ∧
    t.outLen.toNat ≤ 1024) ∧
  (∀ (i : Instr) (s t : State), (∀ len, i ≠ .encrypt len ∧ i ≠ .decrypt len) → exec i s = .next t →
    t.outLen = s.outLen ∧ ∀ j, bufRead .outBuf j t = bufRead .outBuf j s)

/-- R163: the check is true exactly of the concatenations of the table's sequences; the empty sequence, 00 and EF BB BF
are well-formed. -/
def Obligations.Utf8CheckMatchesTable : Prop :=
  (∀ M : List Byte, utf8WellFormed M = true ↔
    ∃ qs : List (List Byte), M = qs.flatten ∧ ∀ q ∈ qs, Utf8Sequence (q.map BitVec.toNat)) ∧
  utf8WellFormed [] = true ∧ utf8WellFormed [0x00] = true ∧ utf8WellFormed [0xEF, 0xBB, 0xBF] = true

/-- The round trip the spec infers from R160, R161 and R164 (R165): decrypting what ENCRYPT gave, under the same pad,
finishes OK with the message exactly when the message is well-formed UTF-8, and otherwise finishes DECODE_MISMATCH. -/
def Obligations.EncryptDecryptRoundTrip : Prop :=
  ∀ (len : Nat) (s t u v : State), len ≤ s.padLen.toNat → exec (.encrypt len) s = .next t →
    bufReadBytes .inBuf len u = bufReadBytes .outBuf len t →
    bufReadBytes .padBuf len u = bufReadBytes .padBuf len s → len ≤ u.padLen.toNat →
    exec (.decrypt len) u = .next v →
    (v.err = 0 ∧ bufReadBytes .outBuf len v = bufReadBytes .inBuf len s ↔
      utf8WellFormed (bufReadBytes .inBuf len s) = true) ∧
    (utf8WellFormed (bufReadBytes .inBuf len s) = false → v.err = 5)

/-- What the spec infers of a desynchronised DECRYPT (R166): a pad that differs from the encrypting pad at every index
never brings the message back (for LEN at least 1); pads of two counters under one Secret differ so; the empty message
comes back under any pad; and two Secrets may give pads that agree at an index. -/
def Obligations.DesynchronisedDecryptNeverReturnsMessage : Prop :=
  (∀ (len : Nat) (s t u v : State), 1 ≤ len → len ≤ s.padLen.toNat → exec (.encrypt len) s = .next t →
    bufReadBytes .inBuf len u = bufReadBytes .outBuf len t →
    (∀ i < len, bufRead .padBuf i u ≠ bufRead .padBuf i s) → exec (.decrypt len) u = .next v →
    ¬ (v.err = 0 ∧ bufReadBytes .outBuf len v = bufReadBytes .inBuf len s) ∧
    (v.err = 0 → ∀ i < len, bufRead .outBuf i v =
      bufRead .inBuf i s ^^^ bufRead .padBuf i s ^^^ bufRead .padBuf i u)) ∧
  (∀ (len : Nat) (s t s' t' : State), s.build = s'.build → s.secret = s'.secret → s.counter ≠ s'.counter →
    exec (.nextPad len) s = .next t → exec (.nextPad len) s' = .next t' → t.err = 0 → t'.err = 0 →
    ∀ i < len, bufRead .padBuf i t ≠ bufRead .padBuf i t') ∧
  (∀ s : State, exec (.decrypt 0) s = .next { s with outLen := 0, err := 0 }) ∧
  (∀ (k : Byte) (c : BitVec 8), ∃ (S S' : Secret) (i : Nat), S ≠ S' ∧ padByte k S c i = padByte k S' c i)

/-- R68 and R256: a command's result depends on the registers and on the bytes of its operand ranges only, and it
stores to its own buffer's range only. -/
def Obligations.CommandsTouchOnlyTheirOperands : Prop :=
  (∀ (len : Nat) (i : Instr) (s s' t t' : State),
    i = .setSeed len ∨ i = .nextPad len ∨ i = .encrypt len ∨ i = .decrypt len ∨ i = .resetState →
    s.SameRegisters s' →
    (i ≠ .nextPad len → i ≠ .resetState → bufReadBytes .inBuf len s = bufReadBytes .inBuf len s') →
    (i = .encrypt len ∨ i = .decrypt len → bufReadBytes .padBuf len s = bufReadBytes .padBuf len s') →
    exec i s = .next t → exec i s' = .next t' →
    t.SameRegisters t' ∧
    (i = .nextPad len → t.err = 0 → bufReadBytes .padBuf len t = bufReadBytes .padBuf len t') ∧
    (i = .encrypt len ∨ i = .decrypt len → t.err = 0 →
      bufReadBytes .outBuf len t = bufReadBytes .outBuf len t')) ∧
  (∀ (len : Nat) (s t : State),
    (exec (.setSeed len) s = .next t ∨ exec .resetState s = .next t → ∀ a, t.byteAt a = s.byteAt a) ∧
    (exec (.nextPad len) s = .next t → ∀ a, ¬ (0x800 ≤ a ∧ a < 0x800 + len) → t.byteAt a = s.byteAt a) ∧
    (exec (.encrypt len) s = .next t ∨ exec (.decrypt len) s = .next t →
      ∀ a, ¬ (0xC00 ≤ a ∧ a < 0xC00 + len) → t.byteAt a = s.byteAt a))

/-! ## The bus (20_memory.md, 10_state.md) -/

/-- R66: what a bus read returns, by word offset, and that it writes no state. -/
def Obligations.BusReadByOffset : Prop :=
  ∀ (s : State) (off o master : Nat), o = off &&& 0xFFC →
    (o = 0x000 → busRead off s = 0) ∧
    (o = 0x004 → (busRead off s).toNat =
      s.counter.toNat * 65536 + (if s.hasSecret then 256 else 0) + s.err.toNat) ∧
    (o = 0x008 → (busRead off s).toNat = s.padLen.toNat) ∧
    (o = 0x00C → (busRead off s).toNat = s.outLen.toNat) ∧
    (o = 0x010 → (busRead off s).toNat =
      s.counter.toNat * 16777216 + (healthStatus s.counter).code.toNat * 65536 + (256 - s.counter.toNat)) ∧
    (o = 0x014 → (busRead off s).toNat = (256 - s.counter.toNat) * 100) ∧
    (0x018 ≤ o → o < 0x400 → busRead off s = 0) ∧
    (0x400 ≤ o → o < 0x800 → (busRead off s).toNat =
      (bufRead .inBuf (o - 0x400) s).toNat + 256 * (bufRead .inBuf (o - 0x400 + 1) s).toNat +
      65536 * (bufRead .inBuf (o - 0x400 + 2) s).toNat + 16777216 * (bufRead .inBuf (o - 0x400 + 3) s).toNat) ∧
    (0x800 ≤ o → o < 0xC00 → (busRead off s).toNat =
      (bufRead .padBuf (o - 0x800) s).toNat + 256 * (bufRead .padBuf (o - 0x800 + 1) s).toNat +
      65536 * (bufRead .padBuf (o - 0x800 + 2) s).toNat + 16777216 * (bufRead .padBuf (o - 0x800 + 3) s).toNat) ∧
    (0xC00 ≤ o → (busRead off s).toNat =
      (bufRead .outBuf (o - 0xC00) s).toNat + 256 * (bufRead .outBuf (o - 0xC00 + 1) s).toNat +
      65536 * (bufRead .outBuf (o - 0xC00 + 2) s).toNat + 16777216 * (bufRead .outBuf (o - 0xC00 + 3) s).toNat) ∧
    deliver (.read master off) s = .next { s with answers := s.answers ++ [⟨master, busRead off s⟩] }

/-- R67: what a bus write does, by word offset. -/
def Obligations.BusWriteByOffset : Prop :=
  ∀ (s : State) (off o : Nat) (v : Word), o = off &&& 0xFFC →
    (o = 0x000 → (∀ i, decode v = .ok i → busWrite off v s = exec i s) ∧
      (∀ c, decode v = .error c → busWrite off v s = .next { s with err := 7 })) ∧
    (o = 0x008 → busWrite off v s =
      .next (if v.toNat ≤ 1024 then { s with padLen := BitVec.ofNat 11 v.toNat } else s)) ∧
    (0x400 ≤ o → o < 0xC00 → ∃ t, busWrite off v s = .next t ∧ t = { s with mem := t.mem } ∧
      t.byteAt o = v.extractLsb' 0 8 ∧ t.byteAt (o + 1) = v.extractLsb' 8 8 ∧
      t.byteAt (o + 2) = v.extractLsb' 16 8 ∧ t.byteAt (o + 3) = v.extractLsb' 24 8 ∧
      ∀ a, ¬ (o ≤ a ∧ a < o + 4) → t.byteAt a = s.byteAt a) ∧
    (o ≠ 0x000 → o ≠ 0x008 → o < 0x400 ∨ 0xC00 ≤ o → busWrite off v s = .next s)

/-- R33: a write of PAD_LEN is taken when the whole word is at most 1024 and dropped otherwise; nothing else changes. -/
def Obligations.PadLenWriteAnyReadLegal : Prop :=
  ∀ (s : State) (off : Nat) (w : Word), off &&& 0xFFC = 0x008 →
    (w.toNat ≤ 1024 → ∃ t, busWrite off w s = .next t ∧ t = { s with padLen := t.padLen } ∧
      t.padLen.toNat = w.toNat) ∧
    (1024 < w.toNat → busWrite off w s = .next s)

/-- A transaction reaches the word at `off & 0xFFC`: bits [1:0] and the bits above 11 make no difference (R61, R64), so
neither does the base of the window, a multiple of 4096 (R60), which the model chooses to be 4096 times an opaque page
number (log 7). -/
def Obligations.OffsetBitsIgnored : Prop :=
  ∀ (s : State) (off : Nat) (v : Word),
    busRead off s = busRead (off &&& 0xFFC) s ∧ busWrite off v s = busWrite (off &&& 0xFFC) v s ∧
    busRead (Config.padgenBase + off) s = busRead off s ∧
    busWrite (Config.padgenBase + off) v s = busWrite off v s

/-- A buffer word reads back as it was written, and no other word of the window changes. -/
def Obligations.BufferWordReadsBack : Prop :=
  ∀ (s t : State) (off off' : Nat) (v : Word), 0x400 ≤ off &&& 0xFFC → off &&& 0xFFC < 0xC00 →
    busWrite off v s = .next t →
    busRead off t = v ∧ (off' &&& 0xFFC ≠ off &&& 0xFFC → busRead off' t = busRead off' s)

/-- Loading a buffer as R99 spells it leaves the bytes in it, zero bytes up to the end of the last word, and all else
as it was; reading the buffer back gives the bytes. -/
def Obligations.LoadedBufferReadsBack : Prop :=
  ∀ (s : State) (b : Buf) (master : Nat) (bytes : List Byte), b = .inBuf ∨ b = .padBuf → bytes.length ≤ 1024 →
    ∃ t, deliverAll (loadEvents master b bytes) s = .next t ∧ t = { s with mem := t.mem } ∧
      bufReadBytes b bytes.length t = bytes ∧ readBuffer b bytes.length t = bytes ∧
      (∀ i, bytes.length ≤ i → i < 4 * wordCount bytes.length → bufRead b i t = 0) ∧
      (∀ a, ¬ (b.base ≤ a ∧ a < b.base + 4 * wordCount bytes.length) → t.byteAt a = s.byteAt a)

/-! ## Pad health (44_health.md) -/

/-- R180 and R181: the HEALTH and HEALTH_PCT registers, and the examples at COUNTER 205. -/
def Obligations.HealthRegisters : Prop :=
  (∀ s : State,
    (busRead 0x010 s).toNat =
      s.counter.toNat * 2 ^ 24 + (healthStatus s.counter).code.toNat * 2 ^ 16 + (256 - s.counter.toNat) ∧
    (busRead 0x014 s).toNat = (256 - s.counter.toNat) * 100 ∧
    100 ≤ (busRead 0x014 s).toNat ∧ (busRead 0x014 s).toNat ≤ 25600) ∧
  (∀ s : State, s.counter = 205 → busRead 0x010 s = 0xCD010033 ∧ busRead 0x014 s = 0x000013EC)

/-- R182: the thresholds of the health status, on every counter; HSTATUS 3 is never produced. -/
def Obligations.HealthThresholds : Prop :=
  ∀ c : BitVec 8,
    (healthStatus c = .healthy ↔ (256 - c.toNat) * 100 > 20 * 256) ∧
    (healthStatus c = .healthy ↔ 52 ≤ 256 - c.toNat) ∧
    (healthStatus c = .healthy ↔ c.toNat ≤ 204) ∧
    (healthStatus c = .warning ↔ ¬ healthStatus c = .healthy ∧ (256 - c.toNat) * 100 > 5 * 256) ∧
    (healthStatus c = .warning ↔ 205 ≤ c.toNat ∧ c.toNat ≤ 243) ∧
    (healthStatus c = .critical ↔ (256 - c.toNat) * 100 ≤ 1280) ∧
    (healthStatus c = .critical ↔ 244 ≤ c.toNat) ∧
    (256 - c.toNat) * 100 ≠ 20 * 256 ∧ (256 - c.toNat) * 100 ≠ 5 * 256 ∧
    (healthStatus c).code ≠ 3

/-- getHealth() and state() (R183, R184) give the counter, the pads remaining, the exact percentage, the class and the
flag. That the host reads the bus directly is the model's choice (log 14). -/
def Obligations.HostReportsHealthAndState : Prop :=
  ∀ s : State,
    hostGetHealth s =
      { counter := s.counter.toNat, padsRemaining := 256 - s.counter.toNat,
        percentX256 := (256 - s.counter.toNat) * 100, status := some (healthStatus s.counter) } ∧
    hostState s = { hasSecret := s.hasSecret, counter := s.counter.toNat } ∧
    readErr s = s.err

/-! ## Status codes (60_exceptions.md) -/

/-- R210: which event leaves which code in ERR; 6 and 8..15 are never produced. -/
def Obligations.StatusCodesByProducer : Prop :=
  (∀ (i : Instr) (s t : State), exec i s = .next t →
    (t.err = 0 ∨ t.err = 1 ∨ t.err = 2 ∨ t.err = 3 ∨ t.err = 4 ∨ t.err = 5) ∧
    (t.err = 1 → ∃ len, i = .setSeed len) ∧
    (t.err = 2 → ∃ len, i = .nextPad len) ∧
    (t.err = 3 → ∃ len, i = .nextPad len ∨ (i = .setSeed len ∧ 1024 < len)) ∧
    (t.err = 4 → ∃ len, i = .encrypt len ∨ i = .decrypt len) ∧
    (t.err = 5 → ∃ len, i = .decrypt len)) ∧
  (∀ (w : Word) (c : IllegalCommand) (s t : State), decode w = .error c → busWrite 0x000 w s = .next t →
    t.err = 7) ∧
  (∀ s t : State, deliver .reset s = .next t → t.err = 0)

/-- R211: every command writes ERR whatever it held, and nothing of it remains; no other event but reset changes it. -/
def Obligations.ErrLifetime : Prop :=
  (∀ (w : Word) (e : BitVec 4) (s : State), busWrite 0x000 w { s with err := e } = busWrite 0x000 w s) ∧
  (∀ s t : State, step s = .next t → (∀ e rest, s.pending = e :: rest → e ≠ .reset ∧ e.command? = none) →
    t.err = s.err)

/-- An error changes nothing but ERR, except that a failing ENCRYPT or DECRYPT also sets OUT_LEN to 0. -/
def Obligations.ErrorsChangeNothingElse : Prop :=
  (∀ (i : Instr) (s t : State), exec i s = .next t → t.err ≠ 0 →
    t = { s with err := t.err, outLen := t.outLen } ∧
    ((∃ len, i = .encrypt len ∨ i = .decrypt len) → t.outLen = 0) ∧
    ((∀ len, i ≠ .encrypt len ∧ i ≠ .decrypt len) → t.outLen = s.outLen))

/-- R213: the one code each command reports, first match winning, and ILLEGAL_COMMAND decided before any check. -/
def Obligations.ErrorCheckOrder : Prop :=
  (∀ (len : Nat) (s t : State), exec (.setSeed len) s = .next t →
    t.err = if len > 1024 then 3 else if len < 16 then 1 else 0) ∧
  (∀ (len : Nat) (s t : State), exec (.nextPad len) s = .next t →
    t.err = if s.hasSecret = false then 2 else if len = 0 ∨ len > 1024 then 3 else 0) ∧
  (∀ (len : Nat) (s t : State), exec (.encrypt len) s = .next t →
    t.err = if len > s.padLen.toNat then 4 else 0) ∧
  (∀ (len : Nat) (s t : State), exec (.decrypt len) s = .next t →
    t.err = if len > s.padLen.toNat then 4
      else if utf8WellFormed (xorCombine (bufReadBytes .inBuf len s) (bufReadBytes .padBuf len s)) = false then 5
      else 0) ∧
  (∀ s t : State, exec .resetState s = .next t → t.err = 0) ∧
  (∀ (w : Word) (c : IllegalCommand) (s : State), decode w = .error c →
    busWrite 0x000 w s = .next { s with err := 7 })

/-! ## Reset and invariants (10_state.md, 70_reset_and_hazards.md) -/

/-- What hardware reset leaves: every element at its reset value, every buffer byte a fresh draw (the model's free value
Config.freeByte: log 3); and the first reads of a PADGEN after reset. The build and the host's lists are kept (log 8). -/
def Obligations.HardwareResetValues : Prop :=
  (∀ s t : State, deliver .reset s = .next t →
    t.secret = Vector.replicate 32 0 ∧ t.hasSecret = false ∧ t.counter = 0 ∧ t.err = 0 ∧ t.padLen = 0 ∧
    t.outLen = 0 ∧ (∀ a, t.byteAt a = Config.freeByte (s.epoch + 1) a) ∧
    t.build = s.build ∧ t.pending = s.pending ∧ t.answers = s.answers ∧
    busRead 0x004 t = 0x00000000 ∧ busRead 0x008 t = 0 ∧ busRead 0x00C t = 0 ∧
    busRead 0x010 t = 0x00000100 ∧ busRead 0x014 t = 0x00006400) ∧
  (State.reset.secret = Vector.replicate 32 0 ∧ State.reset.hasSecret = false ∧ State.reset.counter = 0 ∧
    State.reset.err = 0 ∧ State.reset.padLen = 0 ∧ State.reset.outLen = 0 ∧
    ∀ a, State.reset.byteAt a = Config.freeByte 0 a)

/-- R242: hardware reset compared with RESETSTATE (the bytes after reset are the model's free values: log 3). -/
def Obligations.ResetComparedWithResetState : Prop :=
  ∀ s t u : State, deliver .reset s = .next t → exec .resetState s = .next u →
    (t.hasSecret = false ∧ t.counter = 0 ∧ t.secret = Vector.replicate 32 0) ∧
    (u.hasSecret = false ∧ u.counter = 0 ∧ u.secret = Vector.replicate 32 0) ∧
    (t.err = 0 ∧ t.padLen = 0 ∧ t.outLen = 0 ∧ ∀ a, t.byteAt a = Config.freeByte (s.epoch + 1) a) ∧
    (u.err = 0 ∧ u.padLen = s.padLen ∧ u.outLen = s.outLen ∧ ∀ a, u.byteAt a = s.byteAt a)

/-- The invariant holds at reset, and the memory has the canonical form, which is the model's own (log 4). -/
def Obligations.ResetMeetsInvariant : Prop := State.reset.Inv ∧ State.reset.MemLegal

/-- The invariants the spec infers (R23, R24), with the values ERR never takes (I7): every step keeps the invariant,
from every state that meets it, whatever the host does; and a PADGEN just reset meets it. -/
def Obligations.StepKeepsInvariant : Prop :=
  (∀ s : State, (hardwareReset s).Inv) ∧ ∀ s t : State, s.Inv → step s = .next t → t.Inv

/-- Every step keeps the model's memory in its canonical form and inside the three buffers (the model's own form of
memory: log 4). -/
def Obligations.StepKeepsMemoryCanonical : Prop :=
  ∀ s t : State, s.Inv → s.MemLegal → step s = .next t → t.MemLegal

/-- The build-time parameters never change: that they stand in State is the model's choice (log 5). The model's own field
`epoch`, which selects the draws of the unwritten bytes (log 3), changes with hardware reset only. -/
def Obligations.BuildParametersNeverChange : Prop :=
  ∀ (n : Nat) (s t : State), Host.Core.run Sys2Proof.core n s = .next t →
    t.build = s.build ∧ (.reset ∉ s.pending → t.epoch = s.epoch)

/-! ## What masters can and cannot tell -/

/-- The value of SECRET while unentangled is unobservable: two PADGENs that differ in it alone answer every read of
every run alike. -/
def Obligations.ClearedSecretUnobservable : Prop :=
  ∀ (n : Nat) (s : State) (S : Secret) (t u : State), s.hasSecret = false →
    Host.Core.run Sys2Proof.core n s = .next t →
    Host.Core.run Sys2Proof.core n { s with secret := S } = .next u →
    t.answers = u.answers ∧ ∀ off, busRead off t = busRead off u

/-- PADGEN has no master identifier (R233): events that differ only in their masters leave the same state and give the
same data. The masters' numbers and the record of answers are the model's own (log 9). -/
def Obligations.NoMasterIdentity : Prop :=
  ∀ (es es' : List HostEvent) (s t t' : State), es.map HostEvent.anonymous = es'.map HostEvent.anonymous →
    deliverAll es s = .next t → deliverAll es' s = .next t' →
    t' = { t with answers := t'.answers } ∧ t.answers.map Answer.data = t'.answers.map Answer.data

/-- However an arbiter interleaves the NEXTPAD commands of several masters (R71; the lists are the model's choice, log
1), each master's commands keep their order, none is added or lost, the counter advances once for each of them, and no
two of fewer than 256 commands in a row use one counter value. -/
def Obligations.InterleavedPadRequests : Prop :=
  (∀ (queues : List (List HostEvent)) (es : List HostEvent), Interleaves queues es →
    (∀ q ∈ queues, q.Sublist es) ∧ es.Perm queues.flatten ∧ es.length = (queues.map List.length).sum) ∧
  (∀ (queues : List (List HostEvent)) (es : List HostEvent) (s : State), Interleaves queues es →
    (∀ q ∈ queues, ∀ e ∈ q, ∃ len, e.Runs (.nextPad len) ∧ 1 ≤ len ∧ len ≤ 1024) → s.hasSecret = true →
    ∃ t, deliverAll es s = .next t ∧
      t.counter.toNat = (s.counter.toNat + (queues.map List.length).sum) % 256) ∧
  (∀ (es : List HostEvent) (s t : State),
    (∀ e ∈ es, ∃ len, e.Runs (.nextPad len) ∧ 1 ≤ len ∧ len ≤ 1024) → s.hasSecret = true →
    0 < es.length → es.length < 256 → deliverAll es s = .next t → t.counter ≠ s.counter)

/-! ## The host layer (45_host_layer.md) -/

/-- The codec as R191 and R192 take it from general knowledge (log 14): encoded text is well-formed, decoding is
defined exactly where the check holds, and is the inverse of encoding. -/
def Obligations.Utf8CodecInverse : Prop :=
  (∀ text : Text, utf8WellFormed (utf8Encode text) = true ∧ utf8Decode (utf8Encode text) = some text) ∧
  (∀ M : List Byte, utf8WellFormed M = true ↔ ∃ text, utf8Decode M = some text) ∧
  (∀ (M : List Byte) (text : Text), utf8Decode M = some text → utf8Encode text = M)

/-- R194: decoding fails exactly in the four cases the rule lists, and otherwise gives the unique sequence that encodes
to the text. -/
def Obligations.Base64DecodeFailsExactly : Prop :=
  (∀ T : Text, base64Decode T = none ↔
    (∃ ch ∈ T, ch ≠ '=' ∧ base64Value ch = none) ∨
    T.length % 4 ≠ 0 ∨
    (∃ i, T[i]? = some '=' ∧
      (i + 2 < T.length ∨ (i + 2 = T.length ∧ T[i + 1]? ≠ some '='))) ∨
    (∃ v, 4 ≤ T.length ∧ T[T.length - 1]? = some '=' ∧ T[T.length - 2]? = some '=' ∧
      T[T.length - 3]?.bind base64Value = some v ∧ v % 16 ≠ 0) ∨
    (∃ v, 4 ≤ T.length ∧ T[T.length - 1]? = some '=' ∧
      T[T.length - 2]?.bind base64Value = some v ∧ v % 4 ≠ 0)) ∧
  (∀ (T : Text) (B : List Byte), base64Decode T = some B ↔ base64Encode B = T) ∧
  base64Decode "".toList = some [] ∧ base64Decode "not-valid-base64!!".toList = none

/-- The source's round trip, through two PADGENs in any states: what one party encrypts with a pad the other decrypts
with the same pad to the same text. The argument `skip` and the direct use of the bus are the model's choices, and the
codecs are presumed (log 14). -/
def Obligations.HostRoundTrip : Prop :=
  ∀ (skip skip' : Bool) (message : Text) (pad : List Byte) (s s' : State),
    (utf8Encode message).length ≤ pad.length → pad.length ≤ 1024 →
    ∃ t c u, hostEncrypt skip message pad s = .next (t, .ok c) ∧
      hostDecrypt skip' c pad s' = .next (u, .ok message)

/-- The errors the host returns without a command: the message or ciphertext longer than the pad, and text that is no
base64 (R196, R197; codecs, `skip` and the direct use of the bus: log 14). -/
def Obligations.HostErrorsWithoutCommand : Prop :=
  (∀ (skip : Bool) (message : Text) (pad : List Byte) (s : State), pad.length < (utf8Encode message).length →
    hostEncrypt skip message pad s = .next (s, .error .padTooShort)) ∧
  (∀ (skip : Bool) (text : Text) (pad : List Byte) (s : State), base64Decode text = none →
    hostDecrypt skip text pad s = .next (s, .error .invalidEncoding)) ∧
  (∀ (skip : Bool) (text : Text) (pad c : List Byte) (s : State), base64Decode text = some c →
    pad.length < c.length → hostDecrypt skip text pad s = .next (s, .error .padTooShort))

/-- R198: the pad of host_nextPad, its two errors, and its default length. The states it leaves rest on the host's direct
use of the bus, with no event pending and no answer recorded, which is the model's choice (log 14). -/
def Obligations.HostNextPadByRule : Prop :=
  ∀ (length : Nat) (s : State), hostNextPadDefault s = hostNextPad 32 s ∧
    (65535 < length → hostNextPad length s = .next (s, .error .lengthOutOfRange)) ∧
    (length ≤ 65535 → s.hasSecret = false →
      hostNextPad length s = .next ({ s with err := 2 }, .error .notEntangled)) ∧
    (length ≤ 65535 → s.hasSecret = true → length < 1 ∨ 1024 < length →
      hostNextPad length s = .next ({ s with err := 3 }, .error .lengthOutOfRange)) ∧
    (s.hasSecret = true → 1 ≤ length → length ≤ 1024 → ∃ t, exec (.nextPad length) s = .next t ∧
      hostNextPad length s = .next (t, .ok (derive s.build.k s.secret s.counter length)))

/-- R199: host_setSeed's two errors without a command, and its success; host_resetState is RESETSTATE. That the host
functions use the bus directly is the model's choice (log 14). -/
def Obligations.HostSetSeedByRule : Prop :=
  (∀ (raw : List Byte) (s : State),
    (raw.length < 16 → hostSetSeed raw s = .next (s, .error .seedTooShort)) ∧
    (1024 < raw.length → hostSetSeed raw s = .next (s, .error .lengthOutOfRange)) ∧
    (16 ≤ raw.length → raw.length ≤ 1024 → ∃ t, hostSetSeed raw s = .next (t, .ok ()) ∧
      t.secret = reduce s.build.reduce raw ∧ t.hasSecret = true ∧ t.counter = 0 ∧ t.err = 0)) ∧
  (∀ s : State, hostResetState s = exec .resetState s)
end

