-- ==== Sys2Proof/Laws/State.lean ====
section
/-! SUPPORT. One lemma for each field and each named update of State, each true by rfl. -/

namespace Sys2Proof.Machine

/-! ## finish -/

@[simp] theorem finish_build (c : StatusCode) (s : State) : (finish c s).build = s.build := rfl
@[simp] theorem finish_secret (c : StatusCode) (s : State) : (finish c s).secret = s.secret := rfl
@[simp] theorem finish_hasSecret (c : StatusCode) (s : State) : (finish c s).hasSecret = s.hasSecret := rfl
@[simp] theorem finish_counter (c : StatusCode) (s : State) : (finish c s).counter = s.counter := rfl
@[simp] theorem finish_err (c : StatusCode) (s : State) : (finish c s).err = c.code := rfl
@[simp] theorem finish_padLen (c : StatusCode) (s : State) : (finish c s).padLen = s.padLen := rfl
@[simp] theorem finish_outLen (c : StatusCode) (s : State) : (finish c s).outLen = s.outLen := rfl
@[simp] theorem finish_mem (c : StatusCode) (s : State) : (finish c s).mem = s.mem := rfl
@[simp] theorem finish_epoch (c : StatusCode) (s : State) : (finish c s).epoch = s.epoch := rfl
@[simp] theorem finish_pending (c : StatusCode) (s : State) : (finish c s).pending = s.pending := rfl
@[simp] theorem finish_answers (c : StatusCode) (s : State) : (finish c s).answers = s.answers := rfl

/-! ## illegalCommand -/

@[simp] theorem illegalCommand_build (s : State) : (illegalCommand s).build = s.build := rfl
@[simp] theorem illegalCommand_secret (s : State) : (illegalCommand s).secret = s.secret := rfl
@[simp] theorem illegalCommand_hasSecret (s : State) : (illegalCommand s).hasSecret = s.hasSecret := rfl
@[simp] theorem illegalCommand_counter (s : State) : (illegalCommand s).counter = s.counter := rfl
@[simp] theorem illegalCommand_err (s : State) : (illegalCommand s).err = 7 := rfl
@[simp] theorem illegalCommand_padLen (s : State) : (illegalCommand s).padLen = s.padLen := rfl
@[simp] theorem illegalCommand_outLen (s : State) : (illegalCommand s).outLen = s.outLen := rfl
@[simp] theorem illegalCommand_mem (s : State) : (illegalCommand s).mem = s.mem := rfl
@[simp] theorem illegalCommand_epoch (s : State) : (illegalCommand s).epoch = s.epoch := rfl
@[simp] theorem illegalCommand_pending (s : State) : (illegalCommand s).pending = s.pending := rfl
@[simp] theorem illegalCommand_answers (s : State) : (illegalCommand s).answers = s.answers := rfl

/-! ## bufWrite -/

@[simp] theorem bufWrite_build (b : Buf) (i : Nat) (v : Byte) (s : State) : (bufWrite b i v s).build = s.build := rfl
@[simp] theorem bufWrite_secret (b : Buf) (i : Nat) (v : Byte) (s : State) : (bufWrite b i v s).secret = s.secret := rfl
@[simp] theorem bufWrite_hasSecret (b : Buf) (i : Nat) (v : Byte) (s : State) : (bufWrite b i v s).hasSecret = s.hasSecret := rfl
@[simp] theorem bufWrite_counter (b : Buf) (i : Nat) (v : Byte) (s : State) : (bufWrite b i v s).counter = s.counter := rfl
@[simp] theorem bufWrite_err (b : Buf) (i : Nat) (v : Byte) (s : State) : (bufWrite b i v s).err = s.err := rfl
@[simp] theorem bufWrite_padLen (b : Buf) (i : Nat) (v : Byte) (s : State) : (bufWrite b i v s).padLen = s.padLen := rfl
@[simp] theorem bufWrite_outLen (b : Buf) (i : Nat) (v : Byte) (s : State) : (bufWrite b i v s).outLen = s.outLen := rfl
@[simp] theorem bufWrite_mem (b : Buf) (i : Nat) (v : Byte) (s : State) : (bufWrite b i v s).mem = s.mem.write (b.base + i) v := rfl
@[simp] theorem bufWrite_epoch (b : Buf) (i : Nat) (v : Byte) (s : State) : (bufWrite b i v s).epoch = s.epoch := rfl
@[simp] theorem bufWrite_pending (b : Buf) (i : Nat) (v : Byte) (s : State) : (bufWrite b i v s).pending = s.pending := rfl
@[simp] theorem bufWrite_answers (b : Buf) (i : Nat) (v : Byte) (s : State) : (bufWrite b i v s).answers = s.answers := rfl

/-! ## bufWriteBytes -/

@[simp] theorem bufWriteBytes_build (b : Buf) (vs : List Byte) (s : State) : (bufWriteBytes b vs s).build = s.build := rfl
@[simp] theorem bufWriteBytes_secret (b : Buf) (vs : List Byte) (s : State) : (bufWriteBytes b vs s).secret = s.secret := rfl
@[simp] theorem bufWriteBytes_hasSecret (b : Buf) (vs : List Byte) (s : State) : (bufWriteBytes b vs s).hasSecret = s.hasSecret := rfl
@[simp] theorem bufWriteBytes_counter (b : Buf) (vs : List Byte) (s : State) : (bufWriteBytes b vs s).counter = s.counter := rfl
@[simp] theorem bufWriteBytes_err (b : Buf) (vs : List Byte) (s : State) : (bufWriteBytes b vs s).err = s.err := rfl
@[simp] theorem bufWriteBytes_padLen (b : Buf) (vs : List Byte) (s : State) : (bufWriteBytes b vs s).padLen = s.padLen := rfl
@[simp] theorem bufWriteBytes_outLen (b : Buf) (vs : List Byte) (s : State) : (bufWriteBytes b vs s).outLen = s.outLen := rfl
@[simp] theorem bufWriteBytes_mem (b : Buf) (vs : List Byte) (s : State) : (bufWriteBytes b vs s).mem = s.mem.writeFrom b.base vs := rfl
@[simp] theorem bufWriteBytes_epoch (b : Buf) (vs : List Byte) (s : State) : (bufWriteBytes b vs s).epoch = s.epoch := rfl
@[simp] theorem bufWriteBytes_pending (b : Buf) (vs : List Byte) (s : State) : (bufWriteBytes b vs s).pending = s.pending := rfl
@[simp] theorem bufWriteBytes_answers (b : Buf) (vs : List Byte) (s : State) : (bufWriteBytes b vs s).answers = s.answers := rfl

/-! ## bufWriteWord -/

@[simp] theorem bufWriteWord_build (b : Buf) (w : Nat) (v : Word) (s : State) : (bufWriteWord b w v s).build = s.build := rfl
@[simp] theorem bufWriteWord_secret (b : Buf) (w : Nat) (v : Word) (s : State) : (bufWriteWord b w v s).secret = s.secret := rfl
@[simp] theorem bufWriteWord_hasSecret (b : Buf) (w : Nat) (v : Word) (s : State) : (bufWriteWord b w v s).hasSecret = s.hasSecret := rfl
@[simp] theorem bufWriteWord_counter (b : Buf) (w : Nat) (v : Word) (s : State) : (bufWriteWord b w v s).counter = s.counter := rfl
@[simp] theorem bufWriteWord_err (b : Buf) (w : Nat) (v : Word) (s : State) : (bufWriteWord b w v s).err = s.err := rfl
@[simp] theorem bufWriteWord_padLen (b : Buf) (w : Nat) (v : Word) (s : State) : (bufWriteWord b w v s).padLen = s.padLen := rfl
@[simp] theorem bufWriteWord_outLen (b : Buf) (w : Nat) (v : Word) (s : State) : (bufWriteWord b w v s).outLen = s.outLen := rfl
@[simp] theorem bufWriteWord_mem (b : Buf) (w : Nat) (v : Word) (s : State) : (bufWriteWord b w v s).mem = s.mem.writeFrom (b.base + 4 * w) (bytesOfWord v) := rfl
@[simp] theorem bufWriteWord_epoch (b : Buf) (w : Nat) (v : Word) (s : State) : (bufWriteWord b w v s).epoch = s.epoch := rfl
@[simp] theorem bufWriteWord_pending (b : Buf) (w : Nat) (v : Word) (s : State) : (bufWriteWord b w v s).pending = s.pending := rfl
@[simp] theorem bufWriteWord_answers (b : Buf) (w : Nat) (v : Word) (s : State) : (bufWriteWord b w v s).answers = s.answers := rfl

/-! ## entangle -/

@[simp] theorem entangle_build (S : Secret) (s : State) : (entangle S s).build = s.build := rfl
@[simp] theorem entangle_secret (S : Secret) (s : State) : (entangle S s).secret = S := rfl
@[simp] theorem entangle_hasSecret (S : Secret) (s : State) : (entangle S s).hasSecret = true := rfl
@[simp] theorem entangle_counter (S : Secret) (s : State) : (entangle S s).counter = 0 := rfl
@[simp] theorem entangle_err (S : Secret) (s : State) : (entangle S s).err = s.err := rfl
@[simp] theorem entangle_padLen (S : Secret) (s : State) : (entangle S s).padLen = s.padLen := rfl
@[simp] theorem entangle_outLen (S : Secret) (s : State) : (entangle S s).outLen = s.outLen := rfl
@[simp] theorem entangle_mem (S : Secret) (s : State) : (entangle S s).mem = s.mem := rfl
@[simp] theorem entangle_epoch (S : Secret) (s : State) : (entangle S s).epoch = s.epoch := rfl
@[simp] theorem entangle_pending (S : Secret) (s : State) : (entangle S s).pending = s.pending := rfl
@[simp] theorem entangle_answers (S : Secret) (s : State) : (entangle S s).answers = s.answers := rfl

/-! ## issuePad -/

@[simp] theorem issuePad_build (pad : List Byte) (s : State) : (issuePad pad s).build = s.build := rfl
@[simp] theorem issuePad_secret (pad : List Byte) (s : State) : (issuePad pad s).secret = s.secret := rfl
@[simp] theorem issuePad_hasSecret (pad : List Byte) (s : State) : (issuePad pad s).hasSecret = s.hasSecret := rfl
@[simp] theorem issuePad_counter (pad : List Byte) (s : State) : (issuePad pad s).counter = s.counter := rfl
@[simp] theorem issuePad_err (pad : List Byte) (s : State) : (issuePad pad s).err = s.err := rfl
@[simp] theorem issuePad_padLen (pad : List Byte) (s : State) : (issuePad pad s).padLen = BitVec.ofNat 11 pad.length := rfl
@[simp] theorem issuePad_outLen (pad : List Byte) (s : State) : (issuePad pad s).outLen = s.outLen := rfl
@[simp] theorem issuePad_mem (pad : List Byte) (s : State) : (issuePad pad s).mem = s.mem.writeFrom Buf.padBuf.base pad := rfl
@[simp] theorem issuePad_epoch (pad : List Byte) (s : State) : (issuePad pad s).epoch = s.epoch := rfl
@[simp] theorem issuePad_pending (pad : List Byte) (s : State) : (issuePad pad s).pending = s.pending := rfl
@[simp] theorem issuePad_answers (pad : List Byte) (s : State) : (issuePad pad s).answers = s.answers := rfl

/-! ## advanceCounter -/

@[simp] theorem advanceCounter_build (s : State) : (advanceCounter s).build = s.build := rfl
@[simp] theorem advanceCounter_secret (s : State) : (advanceCounter s).secret = s.secret := rfl
@[simp] theorem advanceCounter_hasSecret (s : State) : (advanceCounter s).hasSecret = s.hasSecret := rfl
@[simp] theorem advanceCounter_counter (s : State) : (advanceCounter s).counter = advance s.counter := rfl
@[simp] theorem advanceCounter_err (s : State) : (advanceCounter s).err = s.err := rfl
@[simp] theorem advanceCounter_padLen (s : State) : (advanceCounter s).padLen = s.padLen := rfl
@[simp] theorem advanceCounter_outLen (s : State) : (advanceCounter s).outLen = s.outLen := rfl
@[simp] theorem advanceCounter_mem (s : State) : (advanceCounter s).mem = s.mem := rfl
@[simp] theorem advanceCounter_epoch (s : State) : (advanceCounter s).epoch = s.epoch := rfl
@[simp] theorem advanceCounter_pending (s : State) : (advanceCounter s).pending = s.pending := rfl
@[simp] theorem advanceCounter_answers (s : State) : (advanceCounter s).answers = s.answers := rfl

/-! ## disentangle -/

@[simp] theorem disentangle_build (s : State) : (disentangle s).build = s.build := rfl
@[simp] theorem disentangle_secret (s : State) : (disentangle s).secret = Secret.zero := rfl
@[simp] theorem disentangle_hasSecret (s : State) : (disentangle s).hasSecret = false := rfl
@[simp] theorem disentangle_counter (s : State) : (disentangle s).counter = 0 := rfl
@[simp] theorem disentangle_err (s : State) : (disentangle s).err = s.err := rfl
@[simp] theorem disentangle_padLen (s : State) : (disentangle s).padLen = s.padLen := rfl
@[simp] theorem disentangle_outLen (s : State) : (disentangle s).outLen = s.outLen := rfl
@[simp] theorem disentangle_mem (s : State) : (disentangle s).mem = s.mem := rfl
@[simp] theorem disentangle_epoch (s : State) : (disentangle s).epoch = s.epoch := rfl
@[simp] theorem disentangle_pending (s : State) : (disentangle s).pending = s.pending := rfl
@[simp] theorem disentangle_answers (s : State) : (disentangle s).answers = s.answers := rfl

/-! ## cipherFail -/

@[simp] theorem cipherFail_build (c : StatusCode) (s : State) : (cipherFail c s).build = s.build := rfl
@[simp] theorem cipherFail_secret (c : StatusCode) (s : State) : (cipherFail c s).secret = s.secret := rfl
@[simp] theorem cipherFail_hasSecret (c : StatusCode) (s : State) : (cipherFail c s).hasSecret = s.hasSecret := rfl
@[simp] theorem cipherFail_counter (c : StatusCode) (s : State) : (cipherFail c s).counter = s.counter := rfl
@[simp] theorem cipherFail_err (c : StatusCode) (s : State) : (cipherFail c s).err = c.code := rfl
@[simp] theorem cipherFail_padLen (c : StatusCode) (s : State) : (cipherFail c s).padLen = s.padLen := rfl
@[simp] theorem cipherFail_outLen (c : StatusCode) (s : State) : (cipherFail c s).outLen = 0 := rfl
@[simp] theorem cipherFail_mem (c : StatusCode) (s : State) : (cipherFail c s).mem = s.mem := rfl
@[simp] theorem cipherFail_epoch (c : StatusCode) (s : State) : (cipherFail c s).epoch = s.epoch := rfl
@[simp] theorem cipherFail_pending (c : StatusCode) (s : State) : (cipherFail c s).pending = s.pending := rfl
@[simp] theorem cipherFail_answers (c : StatusCode) (s : State) : (cipherFail c s).answers = s.answers := rfl

/-! ## cipherDone -/

@[simp] theorem cipherDone_build (out : List Byte) (s : State) : (cipherDone out s).build = s.build := rfl
@[simp] theorem cipherDone_secret (out : List Byte) (s : State) : (cipherDone out s).secret = s.secret := rfl
@[simp] theorem cipherDone_hasSecret (out : List Byte) (s : State) : (cipherDone out s).hasSecret = s.hasSecret := rfl
@[simp] theorem cipherDone_counter (out : List Byte) (s : State) : (cipherDone out s).counter = s.counter := rfl
@[simp] theorem cipherDone_err (out : List Byte) (s : State) : (cipherDone out s).err = 0 := rfl
@[simp] theorem cipherDone_padLen (out : List Byte) (s : State) : (cipherDone out s).padLen = s.padLen := rfl
@[simp] theorem cipherDone_outLen (out : List Byte) (s : State) : (cipherDone out s).outLen = BitVec.ofNat 11 out.length := rfl
@[simp] theorem cipherDone_mem (out : List Byte) (s : State) : (cipherDone out s).mem = s.mem.writeFrom Buf.outBuf.base out := rfl
@[simp] theorem cipherDone_epoch (out : List Byte) (s : State) : (cipherDone out s).epoch = s.epoch := rfl
@[simp] theorem cipherDone_pending (out : List Byte) (s : State) : (cipherDone out s).pending = s.pending := rfl
@[simp] theorem cipherDone_answers (out : List Byte) (s : State) : (cipherDone out s).answers = s.answers := rfl

/-! ## hardwareReset -/

@[simp] theorem hardwareReset_build (s : State) : (hardwareReset s).build = s.build := rfl
@[simp] theorem hardwareReset_secret (s : State) : (hardwareReset s).secret = Secret.zero := rfl
@[simp] theorem hardwareReset_hasSecret (s : State) : (hardwareReset s).hasSecret = false := rfl
@[simp] theorem hardwareReset_counter (s : State) : (hardwareReset s).counter = 0 := rfl
@[simp] theorem hardwareReset_err (s : State) : (hardwareReset s).err = 0 := rfl
@[simp] theorem hardwareReset_padLen (s : State) : (hardwareReset s).padLen = 0 := rfl
@[simp] theorem hardwareReset_outLen (s : State) : (hardwareReset s).outLen = 0 := rfl
@[simp] theorem hardwareReset_mem (s : State) : (hardwareReset s).mem = [] := rfl
@[simp] theorem hardwareReset_epoch (s : State) : (hardwareReset s).epoch = s.epoch + 1 := rfl
@[simp] theorem hardwareReset_pending (s : State) : (hardwareReset s).pending = s.pending := rfl
@[simp] theorem hardwareReset_answers (s : State) : (hardwareReset s).answers = s.answers := rfl

/-! ## answer -/

@[simp] theorem answer_build (m : Nat) (v : Word) (s : State) : (answer m v s).build = s.build := rfl
@[simp] theorem answer_secret (m : Nat) (v : Word) (s : State) : (answer m v s).secret = s.secret := rfl
@[simp] theorem answer_hasSecret (m : Nat) (v : Word) (s : State) : (answer m v s).hasSecret = s.hasSecret := rfl
@[simp] theorem answer_counter (m : Nat) (v : Word) (s : State) : (answer m v s).counter = s.counter := rfl
@[simp] theorem answer_err (m : Nat) (v : Word) (s : State) : (answer m v s).err = s.err := rfl
@[simp] theorem answer_padLen (m : Nat) (v : Word) (s : State) : (answer m v s).padLen = s.padLen := rfl
@[simp] theorem answer_outLen (m : Nat) (v : Word) (s : State) : (answer m v s).outLen = s.outLen := rfl
@[simp] theorem answer_mem (m : Nat) (v : Word) (s : State) : (answer m v s).mem = s.mem := rfl
@[simp] theorem answer_epoch (m : Nat) (v : Word) (s : State) : (answer m v s).epoch = s.epoch := rfl
@[simp] theorem answer_pending (m : Nat) (v : Word) (s : State) : (answer m v s).pending = s.pending := rfl
@[simp] theorem answer_answers (m : Nat) (v : Word) (s : State) : (answer m v s).answers = s.answers ++ [⟨m, v⟩] := rfl

/-! ## writePadLen, whose one field depends on the word -/

theorem writePadLen_eq (v : Word) (s : State) :
    writePadLen v s = { s with padLen := if v.toNat ≤ 1024 then BitVec.ofNat 11 v.toNat else s.padLen } := by
  unfold writePadLen; simp only [Config.padMax]; by_cases h : v.toNat ≤ 1024 <;> simp [h]

theorem writePadLen_padLen (v : Word) (s : State) :
    (writePadLen v s).padLen = if v.toNat ≤ 1024 then BitVec.ofNat 11 v.toNat else s.padLen := by
  rw [writePadLen_eq]

@[simp] theorem writePadLen_build (v : Word) (s : State) : (writePadLen v s).build = s.build := by
  rw [writePadLen_eq]
@[simp] theorem writePadLen_secret (v : Word) (s : State) : (writePadLen v s).secret = s.secret := by
  rw [writePadLen_eq]
@[simp] theorem writePadLen_hasSecret (v : Word) (s : State) : (writePadLen v s).hasSecret = s.hasSecret := by
  rw [writePadLen_eq]
@[simp] theorem writePadLen_counter (v : Word) (s : State) : (writePadLen v s).counter = s.counter := by
  rw [writePadLen_eq]
@[simp] theorem writePadLen_err (v : Word) (s : State) : (writePadLen v s).err = s.err := by
  rw [writePadLen_eq]
@[simp] theorem writePadLen_outLen (v : Word) (s : State) : (writePadLen v s).outLen = s.outLen := by
  rw [writePadLen_eq]
@[simp] theorem writePadLen_mem (v : Word) (s : State) : (writePadLen v s).mem = s.mem := by
  rw [writePadLen_eq]
@[simp] theorem writePadLen_epoch (v : Word) (s : State) : (writePadLen v s).epoch = s.epoch := by
  rw [writePadLen_eq]
@[simp] theorem writePadLen_pending (v : Word) (s : State) : (writePadLen v s).pending = s.pending := by
  rw [writePadLen_eq]
@[simp] theorem writePadLen_answers (v : Word) (s : State) : (writePadLen v s).answers = s.answers := by
  rw [writePadLen_eq]

/-! ## withFetchWord -/

theorem withFetchWord_pending (s : State) (nbits w : Nat) :
    (s.withFetchWord nbits w).pending =
      .write 0 0x000 (BitVec.ofNat 32 (w % 2 ^ nbits)) :: s.pending := rfl

end Sys2Proof.Machine
end

