-- ==== Sys2Proof/Laws/Memory.lean ====
section
/-! SUPPORT. The laws of the memory list: reading after writing, and the canonical form. -/

namespace Sys2Proof.Machine

/-! ## One byte -/

@[simp] theorem Memory.read?_nil (a : Nat) : Memory.read? [] a = none := rfl

theorem Memory.read?_write (m : Memory) (a x : Nat) (v : Byte) :
    (m.write a v).read? x = if x = a then some v else m.read? x := by
  induction m with
  | nil => simp only [Memory.write, Memory.read?]; grind
  | cons c m ih => simp only [Memory.write]; grind [Memory.read?]

theorem Memory.mem_write {m : Memory} {a : Nat} {v : Byte} {c : Host.Cell} (h : c ∈ m.write a v) :
    c = (a, v) ∨ c ∈ m := by
  induction m with
  | nil => simpa [Memory.write] using h
  | cons d m ih => simp only [Memory.write] at h; grind

theorem Memory.write_wf {m : Memory} (h : m.wf) (a : Nat) (v : Byte) : (m.write a v).wf := by
  induction m with
  | nil => simp [Memory.write]
  | cons c m ih =>
    obtain ⟨hc, hm⟩ := List.pairwise_cons.mp h
    simp only [Memory.write]
    split
    · exact List.pairwise_cons.mpr ⟨by grind, h⟩
    · split
      · exact List.pairwise_cons.mpr ⟨by grind, hm⟩
      · refine List.pairwise_cons.mpr ⟨fun d hd => ?_, ih hm⟩
        rcases Memory.mem_write hd with rfl | hd
        · show c.1 < a; omega
        · exact hc d hd

/-- The memory at reset has the canonical form. -/
theorem reset_mem_wf : State.reset.mem.wf := List.Pairwise.nil

/-- Writing a byte again with the value it holds leaves equal data: the form is canonical. -/
theorem Memory.write_write (m : Memory) (a : Nat) (v w : Byte) : (m.write a v).write a w = m.write a w := by
  induction m with
  | nil => simp [Memory.write]
  | cons c m ih => simp only [Memory.write]; grind [Memory.write]

/-! ## A run of bytes -/

@[simp] theorem Memory.writeFrom_nil (m : Memory) (a : Nat) : m.writeFrom a [] = m := rfl

theorem Memory.writeFrom_cons (m : Memory) (a : Nat) (v : Byte) (vs : List Byte) :
    m.writeFrom a (v :: vs) = (m.write a v).writeFrom (a + 1) vs := rfl

/-- What a read gives after a run of bytes is written: the byte of the run, or else what it gave before. -/
theorem Memory.read?_writeFrom (m : Memory) (a x : Nat) (vs : List Byte) :
    (m.writeFrom a vs).read? x =
      if a ≤ x ∧ x < a + vs.length then vs[x - a]? else m.read? x := by
  induction vs generalizing m a with
  | nil => simp
  | cons v vs ih =>
    rw [Memory.writeFrom_cons, ih, Memory.read?_write, List.length_cons]
    by_cases hx : x = a
    · subst hx; simp
    · by_cases hr : a + 1 ≤ x ∧ x < a + 1 + vs.length
      · have h' : x - a = (x - (a + 1)) + 1 := by omega
        rw [if_pos hr, if_pos (by omega), h', List.getElem?_cons_succ]
      · rw [if_neg hr, if_neg hx, if_neg (by omega)]

theorem Memory.mem_writeFrom {m : Memory} {a : Nat} {vs : List Byte} {c : Host.Cell}
    (h : c ∈ m.writeFrom a vs) : (a ≤ c.1 ∧ c.1 < a + vs.length) ∨ c ∈ m := by
  induction vs generalizing m a with
  | nil => exact .inr h
  | cons v vs ih =>
    rcases ih h with h | h
    · simp only [List.length_cons]; omega
    · rcases Memory.mem_write h with rfl | h
      · simp
      · exact .inr h

theorem Memory.writeFrom_wf {m : Memory} (h : m.wf) (a : Nat) (vs : List Byte) : (m.writeFrom a vs).wf := by
  induction vs generalizing m a with
  | nil => exact h
  | cons v vs ih => exact ih (Memory.write_wf h a v) (a + 1)

end Sys2Proof.Machine
end

