-- ==== Sys2Proof/Laws/Ops.lean ====
section
/-! SUPPORT. What the buffer operations do, said through the read of one byte. -/

namespace Sys2Proof.Machine

/-! ## Reading one byte -/

/-- A byte of the window depends on nothing but the memory and the epoch. -/
theorem State.byteAt_congr {s t : State} (hm : s.mem = t.mem) (he : s.epoch = t.epoch) (a : Nat) :
    s.byteAt a = t.byteAt a := by simp only [State.byteAt, hm, he]

/-- Every update that leaves the memory and the epoch leaves every byte. -/
@[simp] theorem finish_byteAt (c : StatusCode) (s : State) (a : Nat) : (finish c s).byteAt a = s.byteAt a := rfl
@[simp] theorem illegalCommand_byteAt (s : State) (a : Nat) : (illegalCommand s).byteAt a = s.byteAt a := rfl
@[simp] theorem entangle_byteAt (S : Secret) (s : State) (a : Nat) : (entangle S s).byteAt a = s.byteAt a := rfl
@[simp] theorem disentangle_byteAt (s : State) (a : Nat) : (disentangle s).byteAt a = s.byteAt a := rfl
@[simp] theorem advanceCounter_byteAt (s : State) (a : Nat) : (advanceCounter s).byteAt a = s.byteAt a := rfl
@[simp] theorem cipherFail_byteAt (c : StatusCode) (s : State) (a : Nat) :
    (cipherFail c s).byteAt a = s.byteAt a := rfl
@[simp] theorem answer_byteAt (m : Nat) (v : Word) (s : State) (a : Nat) : (answer m v s).byteAt a = s.byteAt a := rfl
@[simp] theorem writePadLen_byteAt (v : Word) (s : State) (a : Nat) :
    (writePadLen v s).byteAt a = s.byteAt a := by rw [writePadLen_eq]; rfl

/-- After hardware reset every byte is a fresh draw (R50). -/
@[simp] theorem hardwareReset_byteAt (s : State) (a : Nat) :
    (hardwareReset s).byteAt a = Config.freeByte (s.epoch + 1) a := rfl

/-- One law for every update that writes a run of bytes. -/
theorem State.byteAt_of_writeFrom {s t : State} {a : Nat} {vs : List Byte}
    (hm : t.mem = s.mem.writeFrom a vs) (he : t.epoch = s.epoch) (x : Nat) :
    t.byteAt x = if a ≤ x ∧ x < a + vs.length then vs.getD (x - a) 0 else s.byteAt x := by
  unfold State.byteAt
  rw [hm, he, Memory.read?_writeFrom]
  by_cases h : a ≤ x ∧ x < a + vs.length
  · have : x - a < vs.length := by omega
    rw [if_pos h, if_pos h]
    simp [List.getD, this]
  · rw [if_neg h, if_neg h]

theorem bufWriteBytes_byteAt (b : Buf) (vs : List Byte) (s : State) (x : Nat) :
    (bufWriteBytes b vs s).byteAt x =
      if b.base ≤ x ∧ x < b.base + vs.length then vs.getD (x - b.base) 0 else s.byteAt x :=
  State.byteAt_of_writeFrom (bufWriteBytes_mem b vs s) (bufWriteBytes_epoch b vs s) x

theorem issuePad_byteAt (pad : List Byte) (s : State) (x : Nat) :
    (issuePad pad s).byteAt x =
      if 0x800 ≤ x ∧ x < 0x800 + pad.length then pad.getD (x - 0x800) 0 else s.byteAt x :=
  State.byteAt_of_writeFrom (issuePad_mem pad s) (issuePad_epoch pad s) x

theorem cipherDone_byteAt (out : List Byte) (s : State) (x : Nat) :
    (cipherDone out s).byteAt x =
      if 0xC00 ≤ x ∧ x < 0xC00 + out.length then out.getD (x - 0xC00) 0 else s.byteAt x :=
  State.byteAt_of_writeFrom (cipherDone_mem out s) (cipherDone_epoch out s) x

theorem bufWriteWord_byteAt (b : Buf) (w : Nat) (v : Word) (s : State) (x : Nat) :
    (bufWriteWord b w v s).byteAt x =
      if b.base + 4 * w ≤ x ∧ x < b.base + 4 * w + 4 then (bytesOfWord v).getD (x - (b.base + 4 * w)) 0
      else s.byteAt x :=
  State.byteAt_of_writeFrom (bufWriteWord_mem b w v s) (bufWriteWord_epoch b w v s) x

/-! ## Reading a range of a buffer -/

@[simp] theorem bufReadBytes_length (b : Buf) (n : Nat) (s : State) : (bufReadBytes b n s).length = n := by
  simp [bufReadBytes]

@[simp] theorem bufReadBytes_getElem (b : Buf) (n : Nat) (s : State) (i : Nat)
    (h : i < (bufReadBytes b n s).length) : (bufReadBytes b n s)[i] = bufRead b i s := by
  simp [bufReadBytes]

/-- A range reads as a list exactly when each of its bytes does. -/
theorem bufReadBytes_eq_iff (b : Buf) (vs : List Byte) (s : State) :
    bufReadBytes b vs.length s = vs ↔ ∀ i (h : i < vs.length), bufRead b i s = vs[i] := by
  constructor
  · intro h i hi
    rw [← bufReadBytes_getElem b vs.length s i (by simpa using hi)]
    simp only [h]
  · intro h
    exact List.ext_getElem (by simp) fun i h1 h2 => by simpa using h i h2

/-- Two states read alike on a range exactly when they do at each index of it. -/
theorem bufReadBytes_congr_iff (b : Buf) (n : Nat) (s t : State) :
    bufReadBytes b n s = bufReadBytes b n t ↔ ∀ i < n, bufRead b i s = bufRead b i t := by
  simp [bufReadBytes]

/-- What is written to a buffer is read back from it. -/
theorem bufReadBytes_bufWriteBytes (b : Buf) (vs : List Byte) (s : State) :
    bufReadBytes b vs.length (bufWriteBytes b vs s) = vs := by
  rw [bufReadBytes_eq_iff]
  intro i hi
  simp [bufRead, bufWriteBytes_byteAt, List.getD, hi]

theorem bufReadBytes_issuePad (pad : List Byte) (s : State) :
    bufReadBytes .padBuf pad.length (issuePad pad s) = pad := by
  rw [bufReadBytes_eq_iff]
  intro i hi
  simp [bufRead, issuePad_byteAt, Buf.base, List.getD, hi]

theorem bufReadBytes_cipherDone (out : List Byte) (s : State) :
    bufReadBytes .outBuf out.length (cipherDone out s) = out := by
  rw [bufReadBytes_eq_iff]
  intro i hi
  simp [bufRead, cipherDone_byteAt, Buf.base, List.getD, hi]

/-! ## Words and their bytes (R62) -/

theorem wordOfBytes_toNat (b0 b1 b2 b3 : Byte) :
    (wordOfBytes b0 b1 b2 b3).toNat =
      b0.toNat + 256 * b1.toNat + 65536 * b2.toNat + 16777216 * b3.toNat := by
  have h0 := b0.isLt; have h1 := b1.isLt; have h2 := b2.isLt; have h3 := b3.isLt
  unfold wordOfBytes
  simp only [BitVec.toNat_append, Nat.shiftLeft_eq]
  rw [← Nat.shiftLeft_eq, ← Nat.shiftLeft_eq, ← Nat.shiftLeft_eq,
    ← Nat.shiftLeft_add_eq_or_of_lt h2, ← Nat.shiftLeft_add_eq_or_of_lt h1, ← Nat.shiftLeft_add_eq_or_of_lt h0]
  simp only [Nat.shiftLeft_eq]
  omega

@[simp] theorem bytesOfWord_wordOfBytes (b0 b1 b2 b3 : Byte) :
    bytesOfWord (wordOfBytes b0 b1 b2 b3) = [b0, b1, b2, b3] := by
  have h0 := b0.isLt; have h1 := b1.isLt; have h2 := b2.isLt; have h3 := b3.isLt
  simp only [bytesOfWord, List.cons.injEq, and_true]
  refine ⟨?_, ?_, ?_, ?_⟩ <;> apply BitVec.eq_of_toNat_eq <;>
    simp only [BitVec.extractLsb'_toNat, wordOfBytes_toNat, Nat.shiftRight_eq_div_pow] <;> omega

theorem wordOfBytes_bytesOfWord (v : Word) :
    wordOfBytes (v.extractLsb' 0 8) (v.extractLsb' 8 8) (v.extractLsb' 16 8) (v.extractLsb' 24 8) = v := by
  apply BitVec.eq_of_toNat_eq
  have := v.isLt
  simp only [wordOfBytes_toNat, BitVec.extractLsb'_toNat, Nat.shiftRight_eq_div_pow]
  omega

@[simp] theorem bytesOfWord_length (v : Word) : (bytesOfWord v).length = 4 := rfl

end Sys2Proof.Machine
end

