-- ==== Sys2Proof/Laws/Bus.lean ====
section
/-! SUPPORT. Which word of the window a bus transaction reaches (R61, R64). -/

namespace Sys2Proof.Machine

/-- The word offset in arithmetic: a multiple of four below 4096. -/
theorem wordOffset_eq (off : Nat) : wordOffset off = off / 4 % 1024 * 4 := by
  have hm : (0xFFC : Nat) = (2 ^ 10 - 1) * 2 ^ 2 := by decide
  have hr : off / 4 % 1024 * 4 = off / 2 ^ 2 % 2 ^ 10 * 2 ^ 2 := rfl
  unfold wordOffset
  rw [hm, hr]
  apply Nat.eq_of_testBit_eq
  intro i
  simp only [Nat.testBit_and, Nat.testBit_mul_two_pow, Nat.testBit_two_pow_sub_one, Nat.testBit_mod_two_pow,
    Nat.testBit_div_two_pow]
  by_cases h2 : 2 ≤ i <;> by_cases h10 : i - 2 < 10 <;> simp [h2, h10]

theorem wordOffset_lt (off : Nat) : wordOffset off < 4096 := by rw [wordOffset_eq]; omega

theorem wordOffset_mod (off : Nat) : wordOffset off % 4 = 0 := by rw [wordOffset_eq]; omega

@[simp] theorem wordOffset_wordOffset (off : Nat) : wordOffset (wordOffset off) = wordOffset off := by
  simp only [wordOffset_eq]; omega

/-- What a transaction reaches depends only on the word it reaches. -/
theorem target_congr {off off' : Nat} (h : wordOffset off = wordOffset off') : target off = target off' := by
  simp only [target, h]

/-- A transaction reaches CMD exactly when the word it reaches is at 0x000. -/
theorem target_eq_cmd_iff (off : Nat) : target off = .cmd ↔ wordOffset off = 0 := by
  unfold target targetOfWord
  grind (splits := 15)

/-- The word of a buffer a transaction reaches lies where R62 puts it. -/
theorem target_buffer_offset {off w : Nat} {b : Buf} (h : target off = .buffer b w) :
    wordOffset off = b.base + 4 * w ∧ w < 256 := by
  have h1 := wordOffset_lt off
  have h2 := wordOffset_mod off
  unfold target targetOfWord at h
  cases b <;> simp only [Buf.base] <;> grind (splits := 15)

/-- A word of a buffer, reached at its own offset. -/
theorem target_of_buffer (b : Buf) {w : Nat} (h : w < 256) : target (b.base + 4 * w) = .buffer b w := by
  unfold target targetOfWord
  rw [wordOffset_eq]
  cases b <;> simp only [Buf.base] <;> grind (splits := 15)

/-- A bus read changes nothing but the record of what it answered (R65, R66). -/
theorem deliver_read (m off : Nat) (s : State) :
    deliver (.read m off) s = .next (answer m (busRead off s) s) := rfl

theorem deliver_write (m off : Nat) (v : Word) (s : State) : deliver (.write m off v) s = busWrite off v s := rfl

theorem deliver_reset (s : State) : deliver .reset s = .next (hardwareReset s) := rfl

/-- A CMD write runs a command. -/
theorem busWrite_cmd {off : Nat} (h : wordOffset off = 0) (v : Word) (s : State) :
    busWrite off v s = runCommand v s := by
  unfold busWrite; rw [(target_eq_cmd_iff off).mpr h]

/-- Everything a write that is no CMD write can do: set PAD_LEN, store a word in IN_BUF or PAD_BUF, or nothing (R67). -/
theorem busWrite_cases {off : Nat} (h : wordOffset off ≠ 0) (v : Word) (s : State) :
    (wordOffset off = 0x008 ∧ busWrite off v s = .next (writePadLen v s)) ∨
    (∃ b w, (b = .inBuf ∨ b = .padBuf) ∧ w < 256 ∧ wordOffset off = b.base + 4 * w ∧
      busWrite off v s = .next (bufWriteWord b w v s)) ∨
    busWrite off v s = .next s := by
  have hc : target off ≠ .cmd := fun hc => h ((target_eq_cmd_iff off).mp hc)
  unfold busWrite
  cases ht : target off with
  | cmd => exact absurd ht hc
  | padLen =>
    left
    refine ⟨?_, rfl⟩
    unfold target targetOfWord at ht
    grind (splits := 15)
  | buffer b w =>
    obtain ⟨ho, hw⟩ := target_buffer_offset ht
    cases b with
    | inBuf => exact .inr (.inl ⟨.inBuf, w, .inl rfl, hw, ho, rfl⟩)
    | padBuf => exact .inr (.inl ⟨.padBuf, w, .inr rfl, hw, ho, rfl⟩)
    | outBuf => exact .inr (.inr rfl)
  | status => exact .inr (.inr rfl)
  | outLen => exact .inr (.inr rfl)
  | health => exact .inr (.inr rfl)
  | healthPct => exact .inr (.inr rfl)
  | reserved => exact .inr (.inr rfl)

end Sys2Proof.Machine
end

