-- ==== Sys2Proof/Laws/Encoding.lean ====
section
/-! SUPPORT. The fields of a command word (R91) and of a word the encoder makes (R98). -/

namespace Sys2Proof

theorem opField_toNat (w : Word) : (opField w).toNat = w.toNat % 16 := by
  simp [opField, BitVec.extractLsb'_toNat]

theorem rsvField_toNat (w : Word) : (rsvField w).toNat = w.toNat / 16 % 4096 := by
  simp [rsvField, BitVec.extractLsb'_toNat, Nat.shiftRight_eq_div_pow]

theorem lenField_eq (w : Word) : lenField w = w.toNat / 65536 := by
  have := w.isLt
  simp only [lenField, BitVec.extractLsb'_toNat, Nat.shiftRight_eq_div_pow]
  omega

theorem lenField_lt (w : Word) : lenField w < 65536 := (w.extractLsb' 16 16).isLt

/-- The encoder's word in arithmetic: LEN above, OP below (R91, R98). -/
theorem commandWord_toNat {len op : Nat} (hl : len < 65536) (ho : op < 16) :
    (commandWord len op).toNat = len * 65536 + op := by
  have h : len <<< 16 ||| op = len * 65536 + op := by
    rw [← Nat.shiftLeft_add_eq_or_of_lt (by omega), Nat.shiftLeft_eq]
  rw [commandWord, h, BitVec.toNat_ofNat, Nat.mod_eq_of_lt (by omega)]

theorem opField_commandWord {len op : Nat} (hl : len < 65536) (ho : op < 16) :
    opField (commandWord len op) = BitVec.ofNat 4 op := by
  apply BitVec.eq_of_toNat_eq
  rw [opField_toNat, commandWord_toNat hl ho, BitVec.toNat_ofNat]
  omega

theorem rsvField_commandWord {len op : Nat} (hl : len < 65536) (ho : op < 16) :
    rsvField (commandWord len op) = 0 := by
  apply BitVec.eq_of_toNat_eq
  rw [rsvField_toNat, commandWord_toNat hl ho]
  simp only [BitVec.ofNat_eq_ofNat, BitVec.toNat_ofNat]
  omega

theorem lenField_commandWord {len op : Nat} (hl : len < 65536) (ho : op < 16) :
    lenField (commandWord len op) = len := by
  rw [lenField_eq, commandWord_toNat hl ho]
  omega

/-- A word whose reserved bits are zero is its LEN and OP. -/
theorem toNat_of_rsv_zero {w : Word} (h : rsvField w = 0) :
    w.toNat = lenField w * 65536 + (opField w).toNat := by
  have h' : (rsvField w).toNat = 0 := by rw [h]; rfl
  rw [rsvField_toNat] at h'
  rw [lenField_eq, opField_toNat]
  omega

/-- What a decoded word's fields are, for each command. -/
theorem decode_setSeed_iff (w : Word) (len : Nat) :
    decode w = .ok (.setSeed len) ↔ rsvField w = 0 ∧ opField w = 1 ∧ lenField w = len := by
  unfold decode; grind

theorem decode_nextPad_iff (w : Word) (len : Nat) :
    decode w = .ok (.nextPad len) ↔ rsvField w = 0 ∧ opField w = 2 ∧ lenField w = len := by
  unfold decode; grind

theorem decode_encrypt_iff (w : Word) (len : Nat) :
    decode w = .ok (.encrypt len) ↔ rsvField w = 0 ∧ opField w = 3 ∧ lenField w = len := by
  unfold decode; grind

theorem decode_decrypt_iff (w : Word) (len : Nat) :
    decode w = .ok (.decrypt len) ↔ rsvField w = 0 ∧ opField w = 4 ∧ lenField w = len := by
  unfold decode; grind

theorem decode_resetState_iff (w : Word) :
    decode w = .ok .resetState ↔ rsvField w = 0 ∧ opField w = 5 ∧ lenField w = 0 := by
  unfold decode; grind

/-- The words the decoder refuses, by their fields (R94, R95). -/
theorem decode_error_iff (w : Word) :
    (∃ c, decode w = .error c) ↔
      rsvField w ≠ 0 ∨ (opField w ≠ 1 ∧ opField w ≠ 2 ∧ opField w ≠ 3 ∧ opField w ≠ 4 ∧
        ¬ (opField w = 5 ∧ lenField w = 0)) := by
  unfold decode
  generalize rsvField w = r, opField w = op, lenField w = len
  split_ifs <;> simp_all

end Sys2Proof
end

