-- ==== Sys2Proof/Laws/Commands.lean ====
section
/-! SUPPORT. One lemma for each meaning, for the bus and for the step, that says once everything it can answer. -/

namespace Sys2Proof.Machine

/-! ## The values the commands compute -/

@[simp] theorem derive_length (k : Byte) (S : Secret) (c : BitVec 8) (len : Nat) :
    (derive k S c len).length = len := by simp [derive]

@[simp] theorem derive_getElem (k : Byte) (S : Secret) (c : BitVec 8) (len i : Nat)
    (h : i < (derive k S c len).length) : (derive k S c len)[i] = padByte k S c i := by
  simp [derive]

theorem padByte_toNat (k : Byte) (S : Secret) (c : BitVec 8) (i : Nat) :
    (padByte k S c i).toNat =
      ((S[i % 32]'(Nat.mod_lt i (by decide))).toNat + c.toNat + i * k.toNat) % 256 := by
  simp [padByte, BitVec.toNat_ofNat]

theorem advance_toNat (c : BitVec 8) : (advance c).toNat = (c.toNat + 1) % 256 := by
  simp [advance, BitVec.toNat_ofNat]

@[simp] theorem cipherBytes_length (len : Nat) (s : State) : (cipherBytes len s).length = len := by
  simp [cipherBytes, xorCombine, inputBytes, padBytes]

@[simp] theorem cipherBytes_getElem (len : Nat) (s : State) (i : Nat) (h : i < (cipherBytes len s).length) :
    (cipherBytes len s)[i] = bufRead .inBuf i s ^^^ bufRead .padBuf i s := by
  simp [cipherBytes, xorCombine, inputBytes, padBytes]

@[simp] theorem xorFoldFrom_nil (S : Secret) (i : Nat) : xorFoldFrom S i [] = S := rfl

/-! ## What each command can answer -/

theorem execSetSeed_cases (len : Nat) (s : State) :
    (1024 < len ∧ execSetSeed len s = .next (finish .lengthOutOfRange s)) ∨
    (len < 16 ∧ execSetSeed len s = .next (finish .seedTooShort s)) ∨
    (16 ≤ len ∧ len ≤ 1024 ∧
      execSetSeed len s = .next (finish .ok (entangle (reduce s.build.reduce (inputBytes len s)) s))) := by
  unfold execSetSeed
  simp only [Config.seedMax, Config.seedMin]
  by_cases h1 : 1024 < len
  · exact .inl ⟨h1, if_pos h1⟩
  · by_cases h2 : len < 16
    · exact .inr (.inl ⟨h2, by rw [if_neg h1, if_pos h2]⟩)
    · exact .inr (.inr ⟨by omega, by omega, by rw [if_neg h1, if_neg h2]⟩)

theorem execNextPad_cases (len : Nat) (s : State) :
    (s.hasSecret = false ∧ execNextPad len s = .next (finish .notEntangled s)) ∨
    (s.hasSecret = true ∧ (len < 1 ∨ 1024 < len) ∧
      execNextPad len s = .next (finish .lengthOutOfRange s)) ∨
    (s.hasSecret = true ∧ 1 ≤ len ∧ len ≤ 1024 ∧
      execNextPad len s = .next (finish .ok
        (advanceCounter (issuePad (derive s.build.k s.secret s.counter len) s)))) := by
  unfold execNextPad
  simp only [Config.padMin, Config.padMax]
  by_cases h1 : s.hasSecret = false
  · exact .inl ⟨h1, if_pos h1⟩
  · have h1' : s.hasSecret = true := by simpa using h1
    by_cases h2 : len < 1 ∨ len > 1024
    · exact .inr (.inl ⟨h1', h2, by rw [if_neg h1, if_pos h2]⟩)
    · exact .inr (.inr ⟨h1', by omega, by omega, by rw [if_neg h1, if_neg h2]⟩)

theorem execEncrypt_cases (len : Nat) (s : State) :
    (s.padLen.toNat < len ∧ execEncrypt len s = .next (cipherFail .padTooShort s)) ∨
    (len ≤ s.padLen.toNat ∧ execEncrypt len s = .next (cipherDone (cipherBytes len s) s)) := by
  unfold execEncrypt
  by_cases h : len > s.padLen.toNat
  · exact .inl ⟨h, if_pos h⟩
  · exact .inr ⟨by omega, if_neg h⟩

theorem execDecrypt_cases (len : Nat) (s : State) :
    (s.padLen.toNat < len ∧ execDecrypt len s = .next (cipherFail .padTooShort s)) ∨
    (len ≤ s.padLen.toNat ∧ utf8WellFormed (cipherBytes len s) = false ∧
      execDecrypt len s = .next (cipherFail .decodeMismatch s)) ∨
    (len ≤ s.padLen.toNat ∧ utf8WellFormed (cipherBytes len s) = true ∧
      execDecrypt len s = .next (cipherDone (cipherBytes len s) s)) := by
  unfold execDecrypt
  by_cases h : len > s.padLen.toNat
  · exact .inl ⟨h, if_pos h⟩
  · by_cases hu : utf8WellFormed (cipherBytes len s) = false
    · exact .inr (.inl ⟨by omega, hu, by rw [if_neg h, if_pos hu]⟩)
    · exact .inr (.inr ⟨by omega, by simpa using hu, by rw [if_neg h, if_neg hu]⟩)

/-! ## The dispatch, arm by arm -/

@[simp] theorem exec_setSeed (len : Nat) (s : State) : exec (.setSeed len) s = execSetSeed len s := rfl
@[simp] theorem exec_nextPad (len : Nat) (s : State) : exec (.nextPad len) s = execNextPad len s := rfl
@[simp] theorem exec_encrypt (len : Nat) (s : State) : exec (.encrypt len) s = execEncrypt len s := rfl
@[simp] theorem exec_decrypt (len : Nat) (s : State) : exec (.decrypt len) s = execDecrypt len s := rfl
@[simp] theorem exec_resetState (s : State) : exec .resetState s = execResetState s := rfl

/-- Everything a command can answer, over all the commands. -/
theorem exec_cases {i : Instr} {s t : State} (h : exec i s = .next t) :
    (∃ len, i = .setSeed len ∧
      ((1024 < len ∧ t = finish .lengthOutOfRange s) ∨ (len < 16 ∧ t = finish .seedTooShort s) ∨
        (16 ≤ len ∧ len ≤ 1024 ∧
          t = finish .ok (entangle (reduce s.build.reduce (inputBytes len s)) s)))) ∨
    (∃ len, i = .nextPad len ∧
      ((s.hasSecret = false ∧ t = finish .notEntangled s) ∨
        (s.hasSecret = true ∧ (len < 1 ∨ 1024 < len) ∧ t = finish .lengthOutOfRange s) ∨
        (s.hasSecret = true ∧ 1 ≤ len ∧ len ≤ 1024 ∧
          t = finish .ok (advanceCounter (issuePad (derive s.build.k s.secret s.counter len) s))))) ∨
    (∃ len, (i = .encrypt len ∨ i = .decrypt len) ∧
      ((s.padLen.toNat < len ∧ t = cipherFail .padTooShort s) ∨
        (i = .decrypt len ∧ len ≤ s.padLen.toNat ∧ utf8WellFormed (cipherBytes len s) = false ∧
          t = cipherFail .decodeMismatch s) ∨
        (len ≤ s.padLen.toNat ∧ (i = .decrypt len → utf8WellFormed (cipherBytes len s) = true) ∧
          t = cipherDone (cipherBytes len s) s))) ∨
    (i = .resetState ∧ t = finish .ok (disentangle s)) := by
  cases i with
  | setSeed len =>
    rw [exec_setSeed] at h
    rcases execSetSeed_cases len s with ⟨h1, e⟩ | ⟨h1, e⟩ | ⟨h1, h2, e⟩ <;> rw [e] at h <;> cases h
    · exact .inl ⟨len, rfl, .inl ⟨h1, rfl⟩⟩
    · exact .inl ⟨len, rfl, .inr (.inl ⟨h1, rfl⟩)⟩
    · exact .inl ⟨len, rfl, .inr (.inr ⟨h1, h2, rfl⟩)⟩
  | nextPad len =>
    rw [exec_nextPad] at h
    rcases execNextPad_cases len s with ⟨h1, e⟩ | ⟨h1, h2, e⟩ | ⟨h1, h2, h3, e⟩ <;> rw [e] at h <;> cases h
    · exact .inr (.inl ⟨len, rfl, .inl ⟨h1, rfl⟩⟩)
    · exact .inr (.inl ⟨len, rfl, .inr (.inl ⟨h1, h2, rfl⟩)⟩)
    · exact .inr (.inl ⟨len, rfl, .inr (.inr ⟨h1, h2, h3, rfl⟩)⟩)
  | encrypt len =>
    rw [exec_encrypt] at h
    rcases execEncrypt_cases len s with ⟨h1, e⟩ | ⟨h1, e⟩ <;> rw [e] at h <;> cases h
    · exact .inr (.inr (.inl ⟨len, .inl rfl, .inl ⟨h1, rfl⟩⟩))
    · exact .inr (.inr (.inl ⟨len, .inl rfl, .inr (.inr ⟨h1, by simp, rfl⟩)⟩))
  | decrypt len =>
    rw [exec_decrypt] at h
    rcases execDecrypt_cases len s with ⟨h1, e⟩ | ⟨h1, h2, e⟩ | ⟨h1, h2, e⟩ <;> rw [e] at h <;> cases h
    · exact .inr (.inr (.inl ⟨len, .inr rfl, .inl ⟨h1, rfl⟩⟩))
    · exact .inr (.inr (.inl ⟨len, .inr rfl, .inr (.inl ⟨rfl, h1, h2, rfl⟩)⟩))
    · exact .inr (.inr (.inl ⟨len, .inr rfl, .inr (.inr ⟨h1, fun _ => h2, rfl⟩)⟩))
  | resetState => cases h; exact .inr (.inr (.inr ⟨rfl, rfl⟩))

/-- `finish` leaves a code of R210 in ERR. -/
theorem finish_err_legal (c : StatusCode) (s : State) : ∃ d : StatusCode, (finish c s).err = d.code := ⟨c, rfl⟩

/-- Every command ends with `finish` of some code over a state that keeps the build, the epoch and the host's lists. -/
theorem exec_outer {i : Instr} {s t : State} (h : exec i s = .next t) :
    t.build = s.build ∧ t.epoch = s.epoch ∧ t.pending = s.pending ∧ t.answers = s.answers ∧
      ∃ c : StatusCode, t.err = c.code := by
  cases i with
  | setSeed len =>
    rw [exec_setSeed] at h
    rcases execSetSeed_cases len s with ⟨_, e⟩ | ⟨_, e⟩ | ⟨_, _, e⟩ <;> rw [e] at h <;> cases h <;>
      exact ⟨rfl, rfl, rfl, rfl, finish_err_legal _ _⟩
  | nextPad len =>
    rw [exec_nextPad] at h
    rcases execNextPad_cases len s with ⟨_, e⟩ | ⟨_, _, e⟩ | ⟨_, _, _, e⟩ <;> rw [e] at h <;> cases h <;>
      exact ⟨rfl, rfl, rfl, rfl, finish_err_legal _ _⟩
  | encrypt len =>
    rw [exec_encrypt] at h
    rcases execEncrypt_cases len s with ⟨_, e⟩ | ⟨_, e⟩ <;> rw [e] at h <;> cases h <;>
      exact ⟨rfl, rfl, rfl, rfl, finish_err_legal _ _⟩
  | decrypt len =>
    rw [exec_decrypt] at h
    rcases execDecrypt_cases len s with ⟨_, e⟩ | ⟨_, _, e⟩ | ⟨_, _, e⟩ <;> rw [e] at h <;> cases h <;>
      exact ⟨rfl, rfl, rfl, rfl, finish_err_legal _ _⟩
  | resetState => cases h; exact ⟨rfl, rfl, rfl, rfl, finish_err_legal _ _⟩

/-! ## The bus and the step -/

theorem runCommand_cases (w : Word) (s : State) :
    (∃ i, decode w = .ok i ∧ runCommand w s = exec i s) ∨
    (∃ e, decode w = .error e ∧ runCommand w s = .next (illegalCommand s)) := by
  unfold runCommand
  cases hd : decode w with
  | ok i => exact .inl ⟨i, rfl, rfl⟩
  | error e => exact .inr ⟨e, rfl, rfl⟩

/-- Everything one host event can do. -/
theorem deliver_cases {e : HostEvent} {s t : State} (h : deliver e s = .next t) :
    (∃ m off, e = .read m off ∧ t = answer m (busRead off s) s) ∨
    (∃ m off w i, e = .write m off w ∧ wordOffset off = 0 ∧ decode w = .ok i ∧ exec i s = .next t) ∨
    (∃ m off w c, e = .write m off w ∧ wordOffset off = 0 ∧ decode w = .error c ∧ t = illegalCommand s) ∨
    (∃ m off v, e = .write m off v ∧ wordOffset off = 0x008 ∧ t = writePadLen v s) ∨
    (∃ m off v b w, e = .write m off v ∧ (b = .inBuf ∨ b = .padBuf) ∧ w < 256 ∧
      wordOffset off = b.base + 4 * w ∧ t = bufWriteWord b w v s) ∨
    (∃ m off v, e = .write m off v ∧ wordOffset off ≠ 0 ∧ t = s) ∨
    (e = .reset ∧ t = hardwareReset s) := by
  cases e with
  | read m off => rw [deliver_read] at h; cases h; exact .inl ⟨m, off, rfl, rfl⟩
  | reset => rw [deliver_reset] at h; cases h; simp
  | write m off v =>
    rw [deliver_write] at h
    by_cases ho : wordOffset off = 0
    · rw [busWrite_cmd ho] at h
      rcases runCommand_cases v s with ⟨i, hd, e⟩ | ⟨c, hd, e⟩ <;> rw [e] at h
      · exact .inr (.inl ⟨m, off, v, i, rfl, ho, hd, h⟩)
      · cases h; exact .inr (.inr (.inl ⟨m, off, v, c, rfl, ho, hd, rfl⟩))
    · rcases busWrite_cases ho v s with ⟨h8, e⟩ | ⟨b, w, hb, hw, hbw, e⟩ | e <;> rw [e] at h <;> cases h
      · exact .inr (.inr (.inr (.inl ⟨m, off, v, rfl, h8, rfl⟩)))
      · exact .inr (.inr (.inr (.inr (.inl ⟨m, off, v, b, w, rfl, hb, hw, hbw, rfl⟩))))
      · exact .inr (.inr (.inr (.inr (.inr (.inl ⟨m, off, v, rfl, ho, rfl⟩)))))

/-- Everything one step can do: nothing with no event pending, else the first event. -/
theorem step_cases {s t : State} (h : step s = .next t) :
    (s.pending = [] ∧ t = s) ∨
    (∃ e rest, s.pending = e :: rest ∧ deliver e { s with pending := rest } = .next t) := by
  unfold step at h
  split at h
  · rename_i hp; cases h; exact .inl ⟨hp, rfl⟩
  · rename_i e rest hp; exact .inr ⟨e, rest, hp, h⟩

theorem step_idle {s : State} (h : s.pending = []) : step s = .next s := by
  unfold step; rw [h]

theorem step_event {s : State} {e : HostEvent} {rest : List HostEvent} (h : s.pending = e :: rest) :
    step s = deliver e { s with pending := rest } := by
  unfold step; rw [h]

/-- What `withFetchWord` places is the command the next step runs. -/
theorem step_withFetchWord (s : State) (nbits w : Nat) :
    step (s.withFetchWord nbits w) = runCommand (BitVec.ofNat 32 (w % 2 ^ nbits)) s := rfl

/-! ## Sequences -/

@[simp] theorem andThen_next {α β : Type} (a : α) (f : α → Outcome β) : andThen (.next a) f = f a := rfl

@[simp] theorem deliverAll_nil (s : State) : deliverAll [] s = .next s := rfl

theorem deliverAll_cons (e : HostEvent) (es : List HostEvent) (s : State) :
    deliverAll (e :: es) s = andThen (deliver e s) (deliverAll es) := rfl

theorem deliverAll_append (es fs : List HostEvent) (s : State) :
    deliverAll (es ++ fs) s = andThen (deliverAll es s) (deliverAll fs) := by
  induction es generalizing s with
  | nil => rfl
  | cons e es ih =>
    simp only [List.cons_append, deliverAll_cons]
    cases deliver e s with
    | next t => simp [ih]
    | fault r => rfl
    | refused r => rfl

end Sys2Proof.Machine
end

