-- ==== Sys2Proof/Laws/PerInstr.lean ====
section
/-! SUPPORT. The family TableRow: the encoder's word of each command matches its row of opcode_table.json. -/

namespace Sys2Proof.Laws.TableRow

/-- The "mask" of the command's row. -/
def mask : Instr → Word
  | .setSeed _ => 0x0000FFFF
  | .nextPad _ => 0x0000FFFF
  | .encrypt _ => 0x0000FFFF
  | .decrypt _ => 0x0000FFFF
  | .resetState => 0xFFFFFFFF

/-- The "match" of the command's row. -/
def pattern : Instr → Word
  | .setSeed _ => 0x00000001
  | .nextPad _ => 0x00000002
  | .encrypt _ => 0x00000003
  | .decrypt _ => 0x00000004
  | .resetState => 0x00000005

/-- The encoding of a well-formed command lies in its row. -/
def Statement (i : Instr) : Prop := i.wellFormed = true → encode i &&& mask i = pattern i

theorem commandWord_row {len op : Nat} (hl : len < 65536) (ho : op < 16) :
    commandWord len op &&& 0x0000FFFF = BitVec.ofNat 32 op := by
  apply BitVec.eq_of_toNat_eq
  rw [BitVec.toNat_and, commandWord_toNat hl ho]
  have h : (0x0000FFFF : Word).toNat = 2 ^ 16 - 1 := by decide
  rw [h, Nat.and_two_pow_sub_one_eq_mod, BitVec.toNat_ofNat]
  omega

theorem setSeed (len : Nat) : Statement (.setSeed len) := fun h =>
  commandWord_row (of_decide_eq_true h) (by decide)

theorem nextPad (len : Nat) : Statement (.nextPad len) := fun h =>
  commandWord_row (of_decide_eq_true h) (by decide)

theorem encrypt (len : Nat) : Statement (.encrypt len) := fun h =>
  commandWord_row (of_decide_eq_true h) (by decide)

theorem decrypt (len : Nat) : Statement (.decrypt len) := fun h =>
  commandWord_row (of_decide_eq_true h) (by decide)

theorem resetState : Statement .resetState := fun _ => by decide

end Sys2Proof.Laws.TableRow
end

