-- ==== Sys2Proof/Laws/Registers.lean ====
section
/-! SUPPORT. The registers a bus read computes, as numbers (R31, R35, R36), and the fields of STATUS and HEALTH. -/

namespace Sys2Proof.Machine

/-- Concatenation in arithmetic: `{hi, lo}` with `lo` of `m` bits (R10). -/
theorem toNat_append_eq {n m : Nat} (x : BitVec n) (y : BitVec m) :
    (x ++ y).toNat = x.toNat * 2 ^ m + y.toNat := by
  rw [BitVec.toNat_append, ← Nat.shiftLeft_add_eq_or_of_lt y.isLt, Nat.shiftLeft_eq]

theorem statusWord_toNat (s : State) :
    (statusWord s).toNat = s.counter.toNat * 65536 + (if s.hasSecret then 256 else 0) + s.err.toNat := by
  have h : (BitVec.ofBool s.hasSecret).toNat = if s.hasSecret then 1 else 0 := by cases s.hasSecret <;> rfl
  unfold statusWord
  simp only [toNat_append_eq, BitVec.toNat_ofNat, h]
  split <;> omega

theorem padsRemaining_le (c : BitVec 8) : 1 ≤ padsRemaining c ∧ padsRemaining c ≤ 256 := by
  have := c.isLt
  unfold padsRemaining
  omega

theorem healthWord_toNat (s : State) :
    (healthWord s).toNat =
      s.counter.toNat * 16777216 + (healthStatus s.counter).code.toNat * 65536 + (256 - s.counter.toNat) := by
  have h := padsRemaining_le s.counter
  unfold healthWord
  simp only [toNat_append_eq, BitVec.toNat_ofNat]
  rw [Nat.mod_eq_of_lt (a := padsRemaining s.counter) (by omega)]
  unfold padsRemaining
  omega

theorem healthPctWord_toNat (s : State) : (healthPctWord s).toNat = (256 - s.counter.toNat) * 100 := by
  have h := padsRemaining_le s.counter
  unfold healthPctWord pctX256
  rw [BitVec.toNat_ofNat, Nat.mod_eq_of_lt (by omega)]
  rfl

theorem setWidth_len_toNat (v : BitVec 11) : (v.setWidth 32).toNat = v.toNat := by
  have := v.isLt
  rw [BitVec.toNat_setWidth, Nat.mod_eq_of_lt (by omega)]

/-- A bus read of a buffer word, as its four bytes (R62). -/
theorem bufReadWord_toNat (b : Buf) (w : Nat) (s : State) :
    (bufReadWord b w s).toNat =
      (bufRead b (4 * w) s).toNat + 256 * (bufRead b (4 * w + 1) s).toNat +
      65536 * (bufRead b (4 * w + 2) s).toNat + 16777216 * (bufRead b (4 * w + 3) s).toNat :=
  wordOfBytes_toNat _ _ _ _

/-! ## The registers at their own offsets -/

theorem busRead_cmd (s : State) : busRead 0x000 s = 0 := rfl
theorem busRead_status (s : State) : busRead 0x004 s = statusWord s := rfl
theorem busRead_padLen (s : State) : busRead 0x008 s = s.padLen.setWidth 32 := rfl
theorem busRead_outLen (s : State) : busRead 0x00C s = s.outLen.setWidth 32 := rfl
theorem busRead_health (s : State) : busRead 0x010 s = healthWord s := rfl
theorem busRead_healthPct (s : State) : busRead 0x014 s = healthPctWord s := rfl

/-- A buffer word at its own offset. -/
theorem busRead_buffer (b : Buf) {w : Nat} (h : w < 256) (s : State) :
    busRead (b.base + 4 * w) s = bufReadWord b w s := by
  unfold busRead; rw [target_of_buffer b h]

/-- What a bus read answers depends on what PADGEN shows only: never on SECRET (R22). -/
theorem busRead_congr {s t : State} (hc : s.counter = t.counter) (hh : s.hasSecret = t.hasSecret)
    (he : s.err = t.err) (hp : s.padLen = t.padLen) (ho : s.outLen = t.outLen)
    (hb : ∀ a, s.byteAt a = t.byteAt a) (off : Nat) : busRead off s = busRead off t := by
  unfold busRead
  cases target off <;>
    simp only [statusWord, healthWord, healthPctWord, bufReadWord, bufRead, hc, hh, he, hp, ho, hb]

/-- STATUS bits [3:0] are ERR (R31, R184). -/
theorem statusWord_err (s : State) : (statusWord s).extractLsb' 0 4 = s.err := by
  apply BitVec.eq_of_toNat_eq
  have h := s.err.isLt
  have hc := s.counter.isLt
  rw [BitVec.extractLsb'_toNat, statusWord_toNat, Nat.shiftRight_eq_div_pow]
  split <;> omega

/-- STATUS bits [31:4] do not depend on ERR (R31). -/
theorem statusWord_above_err (s : State) :
    ((statusWord s).extractLsb' 4 28).toNat = s.counter.toNat * 4096 + (if s.hasSecret then 16 else 0) := by
  have h := s.err.isLt
  have hc := s.counter.isLt
  rw [BitVec.extractLsb'_toNat, statusWord_toNat, Nat.shiftRight_eq_div_pow]
  split <;> omega

end Sys2Proof.Machine
end

