-- ==== Sys2Proof/Laws/Runs.lean ====
section
/-! SUPPORT. Runs of the machine, one step at a time, and that an event's effect does not look at the host's lists. -/

namespace Sys2Proof.Machine

@[simp] theorem run_zero (s : State) : Host.Core.run Sys2Proof.core 0 s = .next s := rfl

theorem run_succ (n : Nat) (s : State) :
    Host.Core.run Sys2Proof.core (n + 1) s = andThen (step s) (Host.Core.run Sys2Proof.core n) := by
  have h : Sys2Proof.core.step s = step s := rfl
  simp only [Host.Core.run, h]
  cases step s <;> rfl

/-- Peel one step off a run that ends in a state. -/
theorem run_succ_next {n : Nat} {s t : State} (h : Host.Core.run Sys2Proof.core (n + 1) s = .next t) :
    ∃ u, step s = .next u ∧ Host.Core.run Sys2Proof.core n u = .next t := by
  rw [run_succ] at h
  cases hs : step s with
  | next u => rw [hs] at h; exact ⟨u, rfl, h⟩
  | fault r => rw [hs] at h; cases h
  | refused r => rw [hs] at h; cases h

/-- What holds in a state and what every step keeps holds at the end of every run. -/
theorem run_invariant {P : State → Prop} (hstep : ∀ s t, P s → step s = .next t → P t) {n : Nat} {s t : State}
    (hs : P s) (h : Host.Core.run Sys2Proof.core n s = .next t) : P t := by
  induction n generalizing s with
  | zero => cases h; exact hs
  | succ n ih =>
    obtain ⟨u, hu, hr⟩ := run_succ_next h
    exact ih (hstep s u hs hu) hr

/-- Peel one event off a delivery that ends in a state. -/
theorem deliverAll_cons_next {e : HostEvent} {es : List HostEvent} {s t : State}
    (h : deliverAll (e :: es) s = .next t) : ∃ u, deliver e s = .next u ∧ deliverAll es u = .next t := by
  rw [deliverAll_cons] at h
  cases hd : deliver e s with
  | next u => rw [hd] at h; exact ⟨u, rfl, h⟩
  | fault r => rw [hd] at h; cases h
  | refused r => rw [hd] at h; cases h

/-- What holds in a state and what the delivery of each of the events keeps holds after them all. -/
theorem deliverAll_invariant {P : State → Prop} {es : List HostEvent}
    (hstep : ∀ e ∈ es, ∀ s t, P s → deliver e s = .next t → P t) {s t : State}
    (hs : P s) (h : deliverAll es s = .next t) : P t := by
  induction es generalizing s with
  | nil => cases h; exact hs
  | cons e es ih =>
    obtain ⟨u, hu, hr⟩ := deliverAll_cons_next h
    exact ih (fun e he => hstep e (List.mem_cons_of_mem _ he)) (hstep e (by simp) s u hs hu) hr

/-- A CMD write of an encoded command (R90, R99). -/
theorem deliver_cmdEvent (master : Nat) (i : Instr) (s : State) :
    deliver (cmdEvent master i) s = runCommand (encode i) s := by
  rw [cmdEvent, deliver_write, busWrite_cmd (by decide)]

/-- The command of an event that runs one. -/
theorem HostEvent.runs_iff (e : HostEvent) (i : Instr) :
    e.Runs i ↔ ∃ m off w, e = .write m off w ∧ wordOffset off = 0 ∧ decode w = .ok i := by
  unfold HostEvent.Runs
  constructor
  · rintro ⟨w, hw, hd⟩
    cases e with
    | read m off => cases hw
    | reset => cases hw
    | write m off v =>
      simp only [HostEvent.command?] at hw
      split at hw
      · rename_i ho; cases hw; exact ⟨m, off, w, rfl, ho, hd⟩
      · cases hw
  · rintro ⟨m, off, w, rfl, ho, hd⟩
    exact ⟨w, by simp only [HostEvent.command?, if_pos ho], hd⟩

/-- An event that runs a command does what the command does. -/
theorem deliver_of_runs {e : HostEvent} {i : Instr} (h : e.Runs i) (s : State) : deliver e s = exec i s := by
  obtain ⟨m, off, w, rfl, ho, hd⟩ := (HostEvent.runs_iff e i).mp h
  rw [deliver_write, busWrite_cmd ho, runCommand, hd]

/-- An event runs at most one command. -/
theorem HostEvent.Runs.unique {e : HostEvent} {i j : Instr} (hi : e.Runs i) (hj : e.Runs j) : i = j := by
  obtain ⟨w, hw, hd⟩ := hi
  obtain ⟨w', hw', hd'⟩ := hj
  rw [hw] at hw'; cases hw'
  rw [hd] at hd'; cases hd'; rfl

end Sys2Proof.Machine
end

