-- ==== Sys2Proof/Laws/Sha256.lean ====
section
/-! SUPPORT. The constants of SHA-256 are root fractions: `rootFrom` finds the whole root. -/

namespace Sys2Proof.Machine

/-- From a bracket of width `2 ^ b` around the root, `rootFrom` gives the greatest number whose power is at most `n`. -/
theorem rootFrom_spec (deg n b r : Nat) (hl : r ^ deg ≤ n) (hu : n < (r + 2 ^ b) ^ deg) :
    rootFrom deg n b r ^ deg ≤ n ∧ n < (rootFrom deg n b r + 1) ^ deg := by
  induction b generalizing r with
  | zero => exact ⟨hl, by simpa [rootFrom] using hu⟩
  | succ b ih =>
    have hw : r + 2 ^ b + 2 ^ b = r + 2 ^ (b + 1) := by rw [pow_succ]; omega
    unfold rootFrom
    split
    · rename_i h; exact ih _ h (by rw [hw]; exact hu)
    · rename_i h; exact ih _ hl (by omega)

/-- There are 64 round constants, one for each prime of the list. -/
theorem sha256K_length : sha256K.length = 64 := by
  have h : shaPrimes.length = 64 := by decide +kernel
  simp [sha256K, h]

end Sys2Proof.Machine
end

