-- ==== Sys2Proof/Tests/Slice0.lean ====
section
/-! SUPPORT. Tests of the model against the spec's own values (95_test_vectors.md): the ids in the comments are its
vectors. After them, for each obligation with hypotheses, concrete values that meet them (`witness_…`). -/

namespace Sys2Proof.Machine.Slice0

/-! ## Well-formedness -/

/-- LEN 65536 has no encoding (R98). -/
theorem test_illFormed_setSeed : (Instr.setSeed 65536).wellFormed = false := by decide
theorem test_illFormed_nextPad : (Instr.nextPad 65536).wellFormed = false := by decide
theorem test_illFormed_encrypt : (Instr.encrypt 65536).wellFormed = false := by decide
theorem test_illFormed_decrypt : (Instr.decrypt 65536).wellFormed = false := by decide

/-- The greatest LEN (R92). -/
theorem test_wellFormed_bound : (Instr.nextPad 65535).wellFormed = true ∧ Instr.resetState.wellFormed = true := by
  decide

/-! ## Decoding: words written out field by field, LEN then RSV then OP (R91) -/

/-- V20: LEN 0010, RSV 000, OP 1. -/
theorem test_decode_setSeed :
    decode 0b0000000000010000_000000000000_0001 = .ok (.setSeed 16) := by decide

/-- V21 and V31: LEN 0020 and FFFF, OP 2. -/
theorem test_decode_nextPad :
    decode 0b0000000000100000_000000000000_0010 = .ok (.nextPad 32) ∧
    decode 0b1111111111111111_000000000000_0010 = .ok (.nextPad 65535) := by decide

/-- V22: LEN 000B, OP 3. -/
theorem test_decode_encrypt :
    decode 0b0000000000001011_000000000000_0011 = .ok (.encrypt 11) := by decide

/-- V23: LEN 000B, OP 4. -/
theorem test_decode_decrypt :
    decode 0b0000000000001011_000000000000_0100 = .ok (.decrypt 11) := by decide

/-- V24: the one word of RESETSTATE. -/
theorem test_decode_resetState :
    decode 0b0000000000000000_000000000000_0101 = .ok .resetState := by decide

/-- V25 to V30, the ILLEGAL words. -/
theorem test_decode_illegal :
    decode 0x00000000 = .error .reservedOpcode ∧ decode 0x00200006 = .error .reservedOpcode ∧
    decode 0x0000000F = .error .reservedOpcode ∧ decode 0x00200012 = .error .reservedBits ∧
    decode 0x0020FFF2 = .error .reservedBits ∧ decode 0x00010005 = .error .resetStateLength := by decide

/-- The table word as the host numbers it: the row's `match` with LEN 0. -/
theorem test_decodeTableWord :
    decodeTableWord 32 0x00000004 = some (.decrypt 0) ∧ decodeTableWord 32 0x00000006 = none := by decide

/-- The assembler's examples (95_test_vectors.md, section 2.2) and one refusal. -/
theorem test_assemble :
    assembleLine "SETSEED 28".toList = some 0x001C0001 ∧ assembleLine "NEXTPAD 0x400".toList = some 0x04000002 ∧
    assembleLine "DECRYPT 6".toList = some 0x00060004 ∧ assembleLine "NEXTPAD".toList = some 0x00200002 ∧
    assembleLine "ENCRYPT 65536".toList = none := by decide

theorem test_listing : listing 0x001C0001 = "0x001C0001".toList := by decide

/-! ## The commands, each on a small state -/

/-- A PADGEN with the vectors' `K`, right after reset. -/
def atReset : State := { State.reset with build := ⟨7, .xorFold⟩ }

/-- As `A1` of the vectors, but with nothing in IN_BUF. -/
def entangled (c : BitVec 8) : State := { atReset with secret := exampleSecret, hasSecret := true, counter := c }

/-- Bytes in IN_BUF and a pad in PAD_BUF, with its length in PAD_LEN. -/
def loaded (input pad : List Byte) : State :=
  { bufWriteBytes .padBuf pad (bufWriteBytes .inBuf input atReset) with padLen := BitVec.ofNat 11 pad.length }

/-- Does an outcome go on to a state with this property? -/
def goesTo {α : Type} (o : Outcome α) (p : α → Bool) : Bool :=
  match o with
  | .next t => p t
  | .fault _ => false
  | .refused _ => false

/-- "hello world". -/
def helloBytes : List Byte := [0x68, 0x65, 0x6C, 0x6C, 0x6F, 0x20, 0x77, 0x6F, 0x72, 0x6C, 0x64]

/-- Its ciphertext (V75). -/
def helloCipher : List Byte := [0x68, 0x6D, 0x7C, 0x74, 0x4F, 0x08, 0x47, 0x57, 0x32, 0x24, 0x34]

/-- V40. -/
def examplePad : List Byte :=
  [0x00, 0x08, 0x10, 0x18, 0x20, 0x28, 0x30, 0x38, 0x40, 0x48, 0x50, 0x58, 0x60, 0x68, 0x70, 0x78,
   0x70, 0x77, 0x7E, 0x85, 0x8C, 0x93, 0x9A, 0xA1, 0xA8, 0xAF, 0xB6, 0xBD, 0xC4, 0xCB, 0xD2, 0xD9]

/-- S1. -/
theorem test_setSeed : goesTo (busWrite 0x000 0x00100001 (loaded seedBytes []))
    (fun t => t.secret == exampleSecret && busRead 0x004 t == 0x00000100) = true := by decide

/-- S4: SETSEED 1025 leaves the Secret. -/
theorem test_setSeed_tooLong : goesTo (busWrite 0x000 0x04010001 (entangled 5))
    (fun t => t.err == 3 && t.secret == exampleSecret && t.counter == 5) = true := by decide

/-- V55 and V6. -/
theorem test_nextPad : goesTo (busWrite 0x000 0x00200002 (entangled 0))
    (fun t => bufReadBytes .padBuf 32 t == examplePad && busRead 0x004 t == 0x00010100 &&
      busRead 0x008 t == 0x00000020) = true := by decide

/-- V63: the wrap at 255. -/
theorem test_nextPad_wrap : goesTo (busWrite 0x000 0x00040002 (entangled 255))
    (fun t => bufReadBytes .padBuf 4 t == [0xFF, 0x07, 0x0F, 0x17] && t.counter == 0 &&
      busRead 0x010 t == 0x00000100) = true := by decide

/-- V75. -/
theorem test_encrypt : goesTo (busWrite 0x000 0x000B0003 (loaded helloBytes examplePad))
    (fun t => bufReadBytes .outBuf 11 t == helloCipher && busRead 0x00C t == 0x0000000B && t.err == 0) = true := by
  decide

/-- V83: ENCRYPT makes no UTF-8 check. -/
theorem test_encrypt_unchecked : goesTo (busWrite 0x000 0x00020003 (loaded [0xC0, 0x88] examplePad))
    (fun t => bufReadBytes .outBuf 2 t == [0xC0, 0x80] && t.err == 0) = true := by decide

/-- V76. -/
theorem test_decrypt : goesTo (busWrite 0x000 0x000B0004 (loaded helloCipher examplePad))
    (fun t => bufReadBytes .outBuf 11 t == helloBytes && t.outLen == 11 && t.err == 0) = true := by decide

/-- V88: the counter-2 pad does not decrypt what the counter-1 pad encrypted. -/
theorem test_decrypt_mismatch : goesTo
    (busWrite 0x000 0x00060004
      { loaded [0x69, 0xCA, 0xB8, 0x75, 0x4D, 0x46] [0x02, 0x0A, 0x12, 0x1A, 0x22, 0x2A] with outLen := 6 })
    (fun t => t.err == 5 && t.outLen == 0) = true := by decide

/-- S9: RESETSTATE, with PAD_LEN kept. -/
theorem test_resetState : goesTo (busWrite 0x000 0x00000005 { entangled 3 with padLen := 32, err := 4 })
    (fun t => t.secret == Secret.zero && busRead 0x004 t == 0x00000000 && t.padLen == 32) = true := by decide

/-- V25: ILLEGAL. -/
theorem test_illegal : goesTo (busWrite 0x000 0x00000000 (entangled 0))
    (fun t => busRead 0x004 t == 0x00000107) = true := by decide

/-- A step runs a placed command as its first. -/
theorem test_step : goesTo (step (State.reset.withFetchWord 32 0x00200002)) (fun t => t.err == 2) = true := by decide

/-! ## Values -/

/-- s2 and s3 (S5, S6). -/
theorem test_xorFold :
    (xorFold (utf8Encode "correct horse battery staple".toList)).toList =
      [0x63, 0x6F, 0x72, 0x72, 0x65, 0x63, 0x74, 0x20, 0x68, 0x6F, 0x72, 0x73, 0x65, 0x20, 0x62, 0x61,
       0x74, 0x74, 0x65, 0x72, 0x79, 0x20, 0x73, 0x74, 0x61, 0x70, 0x6C, 0x65, 0x00, 0x00, 0x00, 0x00] ∧
    ((xorFold ((List.range 40).map fun i => BitVec.ofNat 8 (37 * i + 11))).toList.take 9) =
      [0xA0, 0xE0, 0xA0, 0x60, 0xA0, 0xA0, 0x60, 0xA0, 0x33] := by decide

/-- S11, a digest of FIPS 180-4 as the spec gives it. -/
theorem test_sha256 : (sha256 seedBytes).toList =
    [0xbe, 0x45, 0xcb, 0x26, 0x05, 0xbf, 0x36, 0xbe, 0xbd, 0xe6, 0x84, 0x84, 0x1a, 0x28, 0xf0, 0xfd,
     0x43, 0xc6, 0x98, 0x50, 0xa3, 0xdc, 0xe5, 0xfe, 0xdb, 0xa6, 0x99, 0x28, 0xee, 0x3a, 0x89, 0x91] := by
  decide +kernel

/-- V53, at K = 255, bytes 14 to 17 and the byte where the Secret starts again. -/
theorem test_derive : ((derive 255 exampleSecret 0 34).drop 14).take 4 = [0x00, 0x00, 0xF0, 0xEF] ∧
    (derive 128 exampleSecret 0 34).drop 32 = [0x00, 0x81] := by decide

/-- The rows of 95_test_vectors.md, section 2.7, on both sides of each threshold. -/
theorem test_health :
    busRead 0x010 (entangled 204) = 0xCC000034 ∧ busRead 0x010 (entangled 205) = 0xCD010033 ∧
    busRead 0x010 (entangled 243) = 0xF301000D ∧ busRead 0x010 (entangled 244) = 0xF402000C ∧
    busRead 0x014 (entangled 255) = 0x00000064 := by decide

/-- V93 to V115, the ill-formed sequences at the edges of the table. -/
theorem test_utf8_illFormed :
    [[0x80], [0xC1, 0xBF], [0xE0, 0x9F, 0xBF], [0xED, 0xA0, 0x80], [0xE2, 0x82], [0xF0, 0x8F, 0xBF, 0xBF],
     [0xF4, 0x90, 0x80, 0x80], [0xF5, 0x80, 0x80, 0x80], [0x41, 0xC3], [0xC3, 0x41]].all
      (fun M => !utf8WellFormed M) = true := by decide

/-- V96 to V110, the well-formed ones. -/
theorem test_utf8_wellFormed :
    [[0xC2, 0x80], [0xDF, 0xBF], [0xE0, 0xA0, 0x80], [0xED, 0x9F, 0xBF], [0xEE, 0x80, 0x80], [0xEF, 0xBF, 0xBF],
     [0xF0, 0x90, 0x80, 0x80], [0xF4, 0x8F, 0xBF, 0xBF]].all (fun M => utf8WellFormed M) = true := by decide

/-- V107, V110 and V116, code points and bytes. -/
theorem test_utf8_codec : utf8Decode [0xE2, 0x82, 0xAC, 0xC3, 0xA9] = some [Char.ofNat 0x20AC, Char.ofNat 0xE9] ∧
    utf8Encode [Char.ofNat 0x10FFFF] = [0xF4, 0x8F, 0xBF, 0xBF] := by decide

/-- V123, V125, V126. -/
theorem test_base64_encode :
    base64Encode [0xFB, 0xFF] = "+/8=".toList ∧ base64Encode [0x66, 0x6F, 0x6F, 0x62] = "Zm9vYg==".toList ∧
    base64Encode helloCipher = "aG18dE8IR1cyJDQ=".toList := by decide

/-- V133 to V143. -/
theorem test_base64_decode :
    ["AB==", "AAB=", "AB=", "A===", "=AAA", "AA=A", "aG18 dE8I", "-_8=", "not-valid-base64!!"].all
      (fun T => (base64Decode T.toList).isNone) = true ∧
    base64Decode "aG18dE8IR1cyJDQ=".toList = some helloCipher := by decide

/-- The host functions' example (95_test_vectors.md, section 2.8). The last word of OUT_BUF it reads holds a byte past
the result, which must have some value for the kernel to evaluate the word. -/
theorem test_hostEncrypt : goesTo
    (hostEncrypt false "hello world".toList examplePad (bufWriteBytes .outBuf (List.replicate 12 0xEE) atReset))
    (fun r => r.2 == .ok "aG18dE8IR1cyJDQ=".toList) = true := by decide +kernel

/-! ## Witnesses: values that meet the hypotheses of each obligation, at the edges of their ranges -/

/-- A CMD write of a word, by master 3, through an offset whose ignored bits are set. -/
def cmdWrite (w : Word) : HostEvent := .write 3 0x1003 w

/-- `entangled 255` with events pending. -/
def queued (es : List HostEvent) : State := { entangled 255 with pending := es }

theorem witness_DecodeEncodeRoundTrip :
    (Instr.setSeed 0).wellFormed = true ∧ (Instr.encrypt 65535).wellFormed = true := by decide

theorem witness_EncodeDecodeRoundTrip : decode 0xFFFF0002 = .ok (.nextPad 65535) := by decide

theorem witness_AssemblerSpellsCommandWords :
    parseNumber "65535".toList = some 65535 ∧ 65535 ≤ 65535 ∧
    parseNumber "0x10000".toList = some 65536 ∧ 65535 < 65536 := by decide

theorem witness_StepRunsDecodedCommand :
    decode 0x00200002 = .ok (.nextPad 32) ∧
    (queued [cmdWrite 0x00200002, .reset]).pending = .write 3 0x1003 0x00200002 :: [.reset] ∧
    0x1003 &&& 0xFFC = 0 := by decide

theorem witness_IllegalWordSetsErrOnly :
    (queued [cmdWrite 0]).pending = .write 3 0x1003 0 :: [] ∧ 0x1003 &&& 0xFFC = 0 ∧
    (0x00000010 : Word).toNat / 16 % 4096 ≠ 0 ∧ (0x00000000 : Word).toNat % 16 = 0 ∧
    6 ≤ (0x00000006 : Word).toNat % 16 ∧
    ((0x00010005 : Word).toNat % 16 = 5 ∧ (0x00010005 : Word).toNat / 65536 ≠ 0) := by decide

theorem witness_RunServesEventsInOrder :
    (queued [.read 0 4, .reset]).pending = [.read 0 4] ++ [.reset] := by decide

theorem witness_SetSeedByRule :
    65535 ≤ 65535 ∧ 1024 < 1025 ∧ 15 < 16 ∧ (16 ≤ 16 ∧ 16 ≤ 1024) ∧ (16 ≤ 1024 ∧ 1024 ≤ 1024) ∧
    (loaded seedBytes []).build.reduce = .xorFold ∧ bufReadBytes .inBuf 16 (loaded seedBytes []) = seedBytes := by
  decide

theorem witness_ResetStateByRule :
    ((0x00010005 : Word).toNat % 65536 = 5 ∧ (0x00010005 : Word) ≠ 0x00000005) ∧
    (atReset.SecretPaired ∧ atReset.hasSecret = false) ∧
    ∃ t u, exec .resetState (entangled 3) = .next t ∧
      (∀ e ∈ [HostEvent.read 0 4], ∀ len, e.Runs (.setSeed len) → ¬ (16 ≤ len ∧ len ≤ 1024)) ∧
      deliverAll [.read 0 4] t = .next u := by
  refine ⟨by decide, ⟨fun _ => by decide, rfl⟩, _, _, rfl, ?_, rfl⟩
  intro e he len hr
  rw [List.mem_singleton] at he
  subst he
  obtain ⟨m, off, w, hw, _⟩ := (HostEvent.runs_iff _ _).mp hr
  cases hw

theorem witness_XorFoldConsequences :
    (0 < ([0x11] : List Byte).length ∧ (0x12 : Byte) ≠ ([0x11] : List Byte).getD 0 0) ∧
    0 + 32 < (List.replicate 33 (0x11 : Byte)).length ∧ ([] : List Byte).length ≤ (0 : Fin 32).val ∧
    (List.replicate 31 (0x11 : Byte)).length ≤ (31 : Fin 32).val ∧ 16 ≤ 1024 := by decide

theorem witness_SetSeedOnSha256Build :
    ({ loaded seedBytes [] with build := ⟨7, .sha256⟩ } : State).build.reduce = .sha256 ∧
    bufReadBytes .inBuf 16 { loaded seedBytes [] with build := ⟨7, .sha256⟩ } = seedBytes := by decide

/-- Two states with equal raw seeds; a step that entangles; and the same SETSEED twice. -/
theorem witness_SetSeedConsequences :
    ((loaded seedBytes []).build = (loaded seedBytes [0x55]).build ∧
      bufReadBytes .inBuf 16 (loaded seedBytes []) = bufReadBytes .inBuf 16 (loaded seedBytes [0x55])) ∧
    goesTo (step ((loaded seedBytes []).withFetchWord 32 0x00100001)) (fun t => t.hasSecret) = true ∧
    ((loaded seedBytes []).withFetchWord 32 0x00100001).hasSecret = false ∧
    ∃ t u, exec (.setSeed 16) (loaded seedBytes []) = .next t ∧ exec (.setSeed 16) t = .next u :=
  ⟨by decide, by decide, rfl, _, _, rfl, rfl⟩

theorem witness_NextPadByRule :
    atReset.hasSecret = false ∧ (0 < 1 ∨ 1024 < 0) ∧ (1025 < 1 ∨ 1024 < 1025) ∧ (1 ≤ 1 ∧ 1024 ≤ 1024) ∧
    (entangled 0).build.k = 7 ∧ (entangled 0).hasSecret = true ∧ (entangled 0).secret = exampleSecret ∧
    (entangled 0).counter = 0 := by decide

/-- A least period: with `K = 1` and the zero Secret, pad byte `i` is `i` modulo 256. -/
theorem witness_DeriveLaws :
    IsLeast { q | 0 < q ∧ ∀ i, padByte 1 Secret.zero 0 (i + q) = padByte 1 Secret.zero 0 i } 256 ∧
    (4 ≤ 32 ∧ 31 < 32 ∧ (0 : BitVec 8) ≠ 255 ∧ 767 + 256 < 1024) := by
  have hb : ∀ i, (padByte 1 Secret.zero 0 i).toNat = i % 256 := fun i => by
    simp [padByte_toNat, Secret.zero]
  refine ⟨⟨⟨by decide, fun i => BitVec.eq_of_toNat_eq (by rw [hb, hb]; omega)⟩, fun q hq => ?_⟩, by decide⟩
  have h := congrArg BitVec.toNat (hq.2 0)
  have h0 := hq.1
  rw [hb, hb] at h
  omega

/-- One event for each clause: pads at the wrap and refused, seeds taken and refused, RESETSTATE, reset, and a read. -/
theorem witness_CounterWriters :
    [cmdWrite 0x00200002, cmdWrite 0x00000002, cmdWrite 0x000F0001, cmdWrite 0x00000005, .reset, .read 0 4].map
        (fun e => goesTo (step (queued [e])) fun t => t.counter == 255) =
      [false, true, true, false, false, true] ∧
    goesTo (step { loaded seedBytes [] with pending := [cmdWrite 0x00100001] }) (fun t => t.err == 0) = true ∧
    (cmdWrite 0x00200002).Runs (.nextPad 32) ∧ (cmdWrite 0x000F0001).Runs (.setSeed 15) ∧
    (cmdWrite 0x00100001).Runs (.setSeed 16) ∧ (cmdWrite 0x00000005).Runs .resetState :=
  ⟨by decide, by decide, ⟨_, rfl, by decide⟩, ⟨_, rfl, by decide⟩, ⟨_, rfl, by decide⟩, ⟨_, rfl, by decide⟩⟩

theorem witness_SecretIsOwnedAndUnreadable :
    goesTo (step (queued [.reset])) (fun t => t.secret != (queued [.reset]).secret) = true ∧
    goesTo (step (queued [cmdWrite 0x00010002])) (fun t => t.counter != 255) = true := by decide

/-- A SETSEED, then two pads of which the second is refused. -/
theorem witness_CounterCountsPadsIssued :
    ∃ s t, step { loaded seedBytes [] with
        pending := [cmdWrite 0x00100001, cmdWrite 0x00010002, cmdWrite 0x00000002] } = .next s ∧
      (cmdWrite 0x00100001).Runs (.setSeed 16) ∧ s.err = 0 ∧
      (∀ e ∈ [cmdWrite 0x00010002, cmdWrite 0x00000002], e.KeepsSecret) ∧
      Host.Core.run Sys2Proof.core 2 s = .next t ∧ t.counter = 1 := by
  have hr : ∀ w j, decode w = .ok j → ∀ i, (cmdWrite w).Runs i → i = j := fun w j hw i hi =>
    hi.unique ⟨w, rfl, hw⟩
  have hk : ∀ w len, decode w = .ok (.nextPad len) → (cmdWrite w).KeepsSecret := fun w len hw =>
    ⟨by simp [cmdWrite], ⟨fun l h => (by cases hr w _ hw _ h), fun h => (by cases hr w _ hw _ h)⟩⟩
  refine ⟨_, _, rfl, ⟨_, rfl, by decide⟩, rfl, ?_, rfl, by decide⟩
  intro e he
  rcases List.mem_cons.mp he with rfl | he
  · exact hk _ 1 (by decide)
  · rw [List.mem_singleton] at he
    subst he
    exact hk _ 0 (by decide)

theorem witness_PadSequenceRepeatsAfter256 :
    (entangled 255).hasSecret = true ∧ 1 ≤ 1 ∧ 1 ≤ 1024 ∧
    ∃ t, deliverAll (repeatEvents (0 + 1) [cmdEvent 0 (.nextPad 1)]) (entangled 255) = .next t :=
  ⟨rfl, by decide, by decide, _, rfl⟩

/-- Two states with one key and one IN_BUF, and different ERR and PAD_LEN. -/
theorem witness_LockstepDeterminism :
    (entangled 7).SameKey { entangled 7 with err := 4, padLen := 10 } ∧
    bufReadBytes .inBuf 1024 (entangled 7) = bufReadBytes .inBuf 1024 { entangled 7 with err := 4, padLen := 10 } :=
  ⟨⟨rfl, rfl, rfl, rfl⟩, rfl⟩

theorem witness_EncryptByRule :
    (loaded helloBytes examplePad).padLen.toNat < 33 ∧ (loaded helloBytes examplePad).LengthsLegal ∧
    32 ≤ (loaded helloBytes examplePad).padLen.toNat ∧ (loaded helloBytes examplePad).padLen = 32 ∧
    bufReadBytes .inBuf 11 (loaded helloBytes examplePad) = helloBytes ∧
    bufReadBytes .padBuf 11 (loaded helloBytes examplePad) = examplePad.take 11 :=
  ⟨by decide, ⟨by decide, by decide⟩, by decide, rfl, by decide, by decide⟩

theorem witness_DecryptByRule :
    utf8WellFormed ((List.range 11).map fun i =>
      bufRead .inBuf i (loaded helloCipher examplePad) ^^^ bufRead .padBuf i (loaded helloCipher examplePad)) = true ∧
    utf8WellFormed ((List.range 2).map fun i =>
      bufRead .inBuf i (loaded [0xC0, 0x88] examplePad) ^^^ bufRead .padBuf i (loaded [0xC0, 0x88] examplePad)) =
        false ∧
    bufReadBytes .inBuf 11 (loaded helloCipher examplePad) = helloCipher ∧
    (6 ≤ (loaded [0x69, 0xCA, 0xB8, 0x75, 0x4D, 0x46] (derive 7 exampleSecret 2 6)).padLen.toNat ∧
      bufReadBytes .padBuf 6 (loaded [0x69, 0xCA, 0xB8, 0x75, 0x4D, 0x46] (derive 7 exampleSecret 2 6)) =
        derive 7 exampleSecret 2 6) := by decide

theorem witness_CipherResultRegisters :
    (loaded helloCipher examplePad).LengthsLegal ∧
    goesTo (exec (.decrypt 11) (loaded helloCipher examplePad)) (fun t => t.err == 0) = true ∧
    goesTo (exec (.encrypt 33) (loaded helloCipher examplePad)) (fun t => t.err != 0) = true :=
  ⟨⟨by decide, by decide⟩, by decide, by decide⟩

theorem witness_EncryptDecryptRoundTrip :
    ∃ t v, 11 ≤ (loaded helloBytes examplePad).padLen.toNat ∧
      exec (.encrypt 11) (loaded helloBytes examplePad) = .next t ∧
      bufReadBytes .inBuf 11 (loaded helloCipher examplePad) = bufReadBytes .outBuf 11 t ∧
      exec (.decrypt 11) (loaded helloCipher examplePad) = .next v :=
  ⟨_, _, by decide, rfl, by decide, rfl⟩

/-- The pads of counters 0 and 1 differ at every index, and each exec runs on. -/
theorem witness_DesynchronisedDecryptNeverReturnsMessage :
    (∃ t v, exec (.encrypt 11) (loaded helloBytes examplePad) = .next t ∧
      bufReadBytes .inBuf 11 (loaded helloCipher (derive 7 exampleSecret 1 32)) = bufReadBytes .outBuf 11 t ∧
      (∀ i < 11, bufRead .padBuf i (loaded helloCipher (derive 7 exampleSecret 1 32)) ≠
        bufRead .padBuf i (loaded helloBytes examplePad)) ∧
      exec (.decrypt 11) (loaded helloCipher (derive 7 exampleSecret 1 32)) = .next v ∧ v.err = 0) ∧
    ∃ t t', exec (.nextPad 4) (entangled 0) = .next t ∧ exec (.nextPad 4) (entangled 255) = .next t' ∧
      t.err = 0 ∧ t'.err = 0 ∧ (entangled 0).counter ≠ (entangled 255).counter :=
  ⟨⟨_, _, rfl, by decide, by decide, rfl, by decide⟩, _, _, rfl, rfl, by decide, by decide, by decide⟩

/-- Two states that differ in a byte past the operands of ENCRYPT 11. -/
theorem witness_CommandsTouchOnlyTheirOperands :
    (loaded helloBytes examplePad).SameRegisters (loaded (helloBytes ++ [0x55]) examplePad) ∧
    bufReadBytes .inBuf 11 (loaded helloBytes examplePad) =
      bufReadBytes .inBuf 11 (loaded (helloBytes ++ [0x55]) examplePad) ∧
    bufReadBytes .padBuf 11 (loaded helloBytes examplePad) =
      bufReadBytes .padBuf 11 (loaded (helloBytes ++ [0x55]) examplePad) :=
  ⟨⟨⟨rfl, rfl, rfl, rfl⟩, rfl, rfl, rfl⟩, by decide, by decide⟩

/-- An offset at both ends of each range. -/
theorem witness_BusReadByOffset :
    [0x1003, 0x007, 0x00B, 0x00F, 0x013, 0x017, 0x018, 0x3FF, 0x400, 0x7FF, 0x800, 0xBFF, 0xC00, 0xFFF].map
        (fun off => off &&& 0xFFC) =
      [0x000, 0x004, 0x008, 0x00C, 0x010, 0x014, 0x018, 0x3FC, 0x400, 0x7FC, 0x800, 0xBFC, 0xC00, 0xFFC] := by decide

theorem witness_BusWriteByOffset :
    [0x000, 0x00B, 0x400, 0xBFF, 0x3FF, 0xC00].map (fun off => off &&& 0xFFC) =
      [0x000, 0x008, 0x400, 0xBFC, 0x3FC, 0xC00] ∧
    decode 0x00000005 = .ok .resetState ∧ decode 0x00000015 = .error .reservedBits := by decide

theorem witness_PadLenWriteAnyReadLegal :
    0x100B &&& 0xFFC = 0x008 ∧ (1024 : Word).toNat ≤ 1024 ∧ 1024 < (1025 : Word).toNat := by decide

theorem witness_BufferWordReadsBack :
    (0x400 ≤ 0x401 &&& 0xFFC ∧ 0x401 &&& 0xFFC < 0xC00) ∧ (0x400 ≤ 0xBFF &&& 0xFFC ∧ 0xBFF &&& 0xFFC < 0xC00) ∧
    0xBFF &&& 0xFFC ≠ 0x401 &&& 0xFFC ∧ ∃ t, busWrite 0x401 0x6C6C6568 atReset = .next t :=
  ⟨by decide, by decide, by decide, _, rfl⟩

theorem witness_LoadedBufferReadsBack :
    helloBytes.length ≤ 1024 ∧ helloBytes.length ≤ 11 ∧ 11 < 4 * wordCount helloBytes.length ∧
    (List.replicate 1024 (0 : Byte)).length ≤ 1024 :=
  ⟨by decide, by decide, by decide, by rw [List.length_replicate]⟩

theorem witness_HealthRegisters : (entangled 205).counter = 205 := rfl

/-- An outcome for each code of R210, and the words and the event of the other two clauses. -/
theorem witness_StatusCodesByProducer :
    [(Instr.resetState, 0), (.setSeed 15, 1), (.setSeed 1025, 3), (.nextPad 1025, 3), (.encrypt 33, 4)].all
        (fun p => goesTo (exec p.1 { loaded [0xC0, 0x88] examplePad with hasSecret := true }) fun t => t.err == p.2) =
      true ∧
    goesTo (exec (.nextPad 1) atReset) (fun t => t.err == 2) = true ∧
    goesTo (exec (.decrypt 2) (loaded [0xC0, 0x88] examplePad)) (fun t => t.err == 5) = true ∧
    (∃ t, decode 0x00000006 = .error .reservedOpcode ∧ busWrite 0x000 0x00000006 atReset = .next t) ∧
    ∃ t, deliver .reset (entangled 3) = .next t :=
  ⟨by decide, by decide, by decide, ⟨_, by decide, rfl⟩, _, rfl⟩

theorem witness_ErrLifetime :
    ∃ t, step { atReset with err := 4, pending := [.write 0 0x008 32] } = .next t ∧
      ∀ e rest, { atReset with err := 4, pending := [HostEvent.write 0 0x008 32] }.pending = e :: rest →
        e ≠ .reset ∧ e.command? = none :=
  ⟨_, rfl, fun e rest h => by cases h; decide⟩

theorem witness_ErrorsChangeNothingElse :
    goesTo (exec (.nextPad 0) (entangled 9)) (fun t => t.err != 0) = true ∧
    goesTo (exec (.encrypt 1) (entangled 9)) (fun t => t.err != 0) = true := by decide

/-- Each check at its boundary, with the earlier check's condition met too where R213 orders two. -/
theorem witness_ErrorCheckOrder :
    (∃ t, exec (.setSeed 15) atReset = .next t) ∧ (∃ t, exec (.nextPad 0) atReset = .next t) ∧
    (∃ t, exec (.encrypt 1) atReset = .next t) ∧
    (∃ t, exec (.decrypt 33) (loaded [0xC0, 0x88] examplePad) = .next t) ∧
    (∃ t, exec .resetState atReset = .next t) ∧ decode 0x0000000F = .error .reservedOpcode :=
  ⟨⟨_, rfl⟩, ⟨_, rfl⟩, ⟨_, rfl⟩, ⟨_, rfl⟩, ⟨_, rfl⟩, by decide⟩

theorem witness_HardwareResetValues : ∃ t, deliver .reset (queued [.read 0 4]) = .next t := ⟨_, rfl⟩

theorem witness_ResetComparedWithResetState :
    ∃ t u, deliver .reset (entangled 3) = .next t ∧ exec .resetState (entangled 3) = .next u := ⟨_, _, rfl, rfl⟩

theorem witness_StepKeepsInvariant :
    (queued [cmdWrite 0x00200002]).Inv ∧ ∃ t, step (queued [cmdWrite 0x00200002]) = .next t :=
  ⟨⟨fun h => (by cases h), ⟨by decide, by decide⟩, .inl rfl⟩, _, rfl⟩

theorem witness_StepKeepsMemoryCanonical :
    (loaded [0x11, 0x22] [0x33]).Inv ∧ (loaded [0x11, 0x22] [0x33]).MemLegal ∧
    ∃ t, step (loaded [0x11, 0x22] [0x33]) = .next t :=
  ⟨⟨fun _ => by decide, ⟨by decide, by decide⟩, .inl rfl⟩, ⟨by decide, by decide⟩, _, rfl⟩

theorem witness_BuildParametersNeverChange :
    (∃ t, Host.Core.run Sys2Proof.core 1 (queued [.read 0 4]) = .next t) ∧ .reset ∉ (queued [.read 0 4]).pending :=
  ⟨⟨_, rfl⟩, by decide⟩

/-- Two unentangled states of unequal Secrets, with a read and a SETSEED to come. -/
theorem witness_ClearedSecretUnobservable :
    atReset.hasSecret = false ∧
    (∃ t, Host.Core.run Sys2Proof.core 2
      { loaded seedBytes [] with pending := [.read 0 4, cmdWrite 0x00100001] } = .next t) ∧
    (∃ u, Host.Core.run Sys2Proof.core 2
      { loaded seedBytes [] with pending := [.read 0 4, cmdWrite 0x00100001], secret := exampleSecret } = .next u) ∧
    exampleSecret ≠ atReset.secret :=
  ⟨rfl, ⟨_, rfl⟩, ⟨_, rfl⟩, by decide⟩

theorem witness_NoMasterIdentity :
    [HostEvent.read 0 4, .write 0 8 32].map HostEvent.anonymous =
      [HostEvent.read 1 4, .write 2 8 32].map HostEvent.anonymous ∧
    (∃ t, deliverAll [.read 0 4, .write 0 8 32] atReset = .next t) ∧
    ∃ t, deliverAll [.read 1 4, .write 2 8 32] atReset = .next t :=
  ⟨by decide, ⟨_, rfl⟩, _, rfl⟩

/-- Two masters with one pad each, the second served first. -/
theorem witness_InterleavedPadRequests :
    Interleaves [[cmdEvent 0 (.nextPad 1)], [cmdEvent 1 (.nextPad 1024)]]
      [cmdEvent 1 (.nextPad 1024), cmdEvent 0 (.nextPad 1)] ∧
    (∀ q ∈ [[cmdEvent 0 (.nextPad 1)], [cmdEvent 1 (.nextPad 1024)]], ∀ e ∈ q,
      ∃ len, e.Runs (.nextPad len) ∧ 1 ≤ len ∧ len ≤ 1024) ∧
    (entangled 255).hasSecret = true ∧ 0 < 2 ∧ 2 < 256 := by
  refine ⟨?_, ?_, rfl, by decide, by decide⟩
  · exact .serve _ 1 _ [] _ rfl (.serve _ 0 _ [] _ rfl (.done _ (by decide)))
  · intro q hq e he
    rcases List.mem_cons.mp hq with rfl | hq
    · rw [List.mem_singleton] at he
      subst he
      exact ⟨1, ⟨_, rfl, by decide⟩, by decide, by decide⟩
    · rw [List.mem_singleton] at hq
      subst hq
      rw [List.mem_singleton] at he
      subst he
      exact ⟨1024, ⟨_, rfl, by decide⟩, by decide, by decide⟩

theorem witness_Utf8CodecInverse : utf8Decode [0xEF, 0xBB, 0xBF] = some [Char.ofNat 0xFEFF] := by decide

theorem witness_HostRoundTrip :
    (utf8Encode "hello world".toList).length ≤ examplePad.length ∧ examplePad.length ≤ 1024 ∧
    (utf8Encode []).length ≤ ([] : List Byte).length := by decide

theorem witness_HostErrorsWithoutCommand :
    ([0x00] : List Byte).length < (utf8Encode "hi".toList).length ∧ base64Decode "AB==".toList = none ∧
    base64Decode "AAA=".toList = some [0x00, 0x00] ∧ ([0x00] : List Byte).length < ([0x00, 0x00] : List Byte).length := by
  decide

theorem witness_HostNextPadByRule :
    65535 < 65536 ∧ (65535 ≤ 65535 ∧ atReset.hasSecret = false) ∧
    ((entangled 0).hasSecret = true ∧ (0 < 1 ∨ 1024 < 0) ∧ (1025 < 1 ∨ 1024 < 1025) ∧ 1 ≤ 1024 ∧ 1024 ≤ 1024) := by
  decide

theorem witness_HostSetSeedByRule :
    (List.replicate 15 (0 : Byte)).length < 16 ∧ 16 ≤ seedBytes.length ∧ seedBytes.length ≤ 1024 ∧
    1024 < (List.replicate 1025 (0 : Byte)).length :=
  ⟨by decide, by decide, by decide, by rw [List.length_replicate]; decide⟩

end Sys2Proof.Machine.Slice0
end

section
/-! PROOFS. Who writes SECRET and COUNTER (R22), and what a bus write to PAD_LEN does (R33). -/

namespace Sys2Proof.Machine

/-! ## The writers of the key -/

/-- A command that changes anything pads are derived from is a SETSEED, a RESETSTATE, or a NEXTPAD, which leaves
SECRET. -/
theorem exec_sameKey_or_writer {i : Instr} {s t : State} (h : exec i s = .next t) :
    s.SameKey t ∨ (∃ len, i = .setSeed len) ∨ i = .resetState ∨
      (t.secret = s.secret ∧ ∃ len, i = .nextPad len) := by
  rcases exec_cases h with ⟨len, rfl, _⟩ | ⟨len, rfl, hpad⟩ | ⟨len, _, hcipher⟩ | ⟨rfl, _⟩
  · exact .inr (.inl ⟨len, rfl⟩)
  · have hsecret : t.secret = s.secret := by
      rcases hpad with ⟨_, rfl⟩ | ⟨_, _, rfl⟩ | ⟨_, _, _, rfl⟩ <;> simp
    exact .inr (.inr (.inr ⟨hsecret, len, rfl⟩))
  · left
    rcases hcipher with ⟨_, rfl⟩ | ⟨_, _, _, rfl⟩ | ⟨_, _, rfl⟩ <;> simp [State.SameKey]
  · exact .inr (.inr (.inl rfl))

/-- An event that changes anything pads are derived from is a hardware reset or runs one of those commands. -/
theorem deliver_sameKey_or_writer {e : HostEvent} {s t : State} (h : deliver e s = .next t) :
    s.SameKey t ∨ e = .reset ∨ (∃ len, e.Runs (.setSeed len)) ∨ e.Runs .resetState ∨
      (t.secret = s.secret ∧ ∃ len, e.Runs (.nextPad len)) := by
  rcases deliver_cases h with ⟨m, off, _, rfl⟩ | ⟨m, off, w, i, he, ho, hd, hexec⟩ | ⟨m, off, w, c, _, _, _, rfl⟩ |
    ⟨m, off, v, _, _, rfl⟩ | ⟨m, off, v, b, w, _, _, _, _, rfl⟩ | ⟨m, off, v, _, _, rfl⟩ | ⟨he, _⟩
  case inr.inl =>
    have hruns : e.Runs i := (HostEvent.runs_iff e i).mpr ⟨m, off, w, he, ho, hd⟩
    rcases exec_sameKey_or_writer hexec with hkey | ⟨len, rfl⟩ | rfl | ⟨hsecret, len, rfl⟩
    · exact .inl hkey
    · exact .inr (.inr (.inl ⟨len, hruns⟩))
    · exact .inr (.inr (.inr (.inl hruns)))
    · exact .inr (.inr (.inr (.inr ⟨hsecret, len, hruns⟩)))
  case inr.inr.inr.inr.inr.inr => exact .inr (.inl he)
  all_goals exact .inl (by simp [State.SameKey])

/-- No bus read shows SECRET (R22). -/
theorem busRead_with_secret (off : Nat) (S : Secret) (s : State) :
    busRead off { s with secret := S } = busRead off s :=
  busRead_congr rfl rfl rfl rfl rfl (State.byteAt_congr rfl rfl) off

/-- Settles O20: a step is idle or delivers its first event, and an event keeps the key or is one of R22's writers. -/
theorem secretIsOwnedAndUnreadable : Obligations.SecretIsOwnedAndUnreadable := by
  refine ⟨fun s t h hchange => ?_, fun s S off => busRead_with_secret off S s⟩
  rcases step_cases h with ⟨_, rfl⟩ | ⟨e, rest, hp, hd⟩
  · exact absurd hchange (by simp)
  · rcases deliver_sameKey_or_writer hd with ⟨_, hsecret, _, hcounter⟩ | hwriter
    · exact absurd hchange (by simp [← hsecret, ← hcounter])
    · exact ⟨e, rest, hp, hwriter⟩

/-! ## PAD_LEN -/

/-- A write that reaches offset 0x008 is a PAD_LEN write (R33, R67). -/
theorem busWrite_padLen {off : Nat} (h : wordOffset off = 0x008) (v : Word) (s : State) :
    busWrite off v s = .next (writePadLen v s) := by
  have ht : target off = .padLen := by rw [target, h]; rfl
  rw [busWrite, ht]

/-- A word over PAD_MAX is dropped whole (R33). -/
theorem writePadLen_of_gt {v : Word} (h : 1024 < v.toNat) (s : State) : writePadLen v s = s := by
  rw [writePadLen_eq, if_neg (by omega)]

/-- A word up to PAD_MAX is taken whole (R33). -/
theorem writePadLen_padLen_of_le {v : Word} (h : v.toNat ≤ 1024) (s : State) :
    (writePadLen v s).padLen.toNat = v.toNat := by
  rw [writePadLen_padLen, if_pos h, BitVec.toNat_ofNat, Nat.mod_eq_of_lt (by omega)]

/-- A PAD_LEN write writes no other field (R33). -/
theorem writePadLen_frame (v : Word) (s : State) :
    writePadLen v s = { s with padLen := (writePadLen v s).padLen } := by
  rw [writePadLen_padLen, writePadLen_eq]

/-- Settles O33, from the two cases of `writePadLen` on either side of PAD_MAX. -/
theorem padLenWriteAnyReadLegal : Obligations.PadLenWriteAnyReadLegal := by
  intro s off w hoff
  rw [busWrite_padLen hoff]
  refine ⟨fun hle => ⟨_, rfl, writePadLen_frame w s, writePadLen_padLen_of_le hle s⟩, fun hgt => ?_⟩
  rw [writePadLen_of_gt hgt]

end Sys2Proof.Machine
end

section
/-! PROOFS. The host bus (20_memory.md): which offset bits count (R61, R64), what a read returns (R66) and what a write
does (R67). -/

namespace Sys2Proof.Machine

/-! ## The word a transaction reaches -/

/-- The window's base is a multiple of 4096 (R60), so it leaves bits [11:2] alone. -/
theorem wordOffset_padgenBase_add (off : Nat) : wordOffset (Config.padgenBase + off) = wordOffset off := by
  rw [wordOffset_eq, wordOffset_eq, Config.padgenBase]; omega

theorem busRead_congr_offset {off off' : Nat} (h : wordOffset off = wordOffset off') (s : State) :
    busRead off s = busRead off' s := by
  rw [busRead, busRead, target_congr h]

theorem busWrite_congr_offset {off off' : Nat} (h : wordOffset off = wordOffset off') (v : Word) (s : State) :
    busWrite off v s = busWrite off' v s := by
  rw [busWrite, busWrite, target_congr h]

theorem busRead_wordOffset (off : Nat) (s : State) : busRead (wordOffset off) s = busRead off s :=
  busRead_congr_offset (wordOffset_wordOffset off) s

theorem busWrite_wordOffset (off : Nat) (v : Word) (s : State) : busWrite (wordOffset off) v s = busWrite off v s :=
  busWrite_congr_offset (wordOffset_wordOffset off) v s

/-- Settles O34: what a transaction does depends on its word offset alone. -/
theorem offsetBitsIgnored : Obligations.OffsetBitsIgnored := by
  intro s off v
  exact ⟨(busRead_wordOffset off s).symm, (busWrite_wordOffset off v s).symm,
    busRead_congr_offset (wordOffset_padgenBase_add off) s, busWrite_congr_offset (wordOffset_padgenBase_add off) v s⟩

/-- A word offset in a buffer's range is that of one of the buffer's 256 words (R62). -/
theorem wordOffset_eq_base_add {off : Nat} {b : Buf} (hlo : b.base ≤ wordOffset off)
    (hhi : wordOffset off < b.base + 1024) : ∃ w < 256, wordOffset off = b.base + 4 * w := by
  have hmod := wordOffset_mod off
  have hbase : b.base % 4 = 0 := by cases b <;> rfl
  exact ⟨(wordOffset off - b.base) / 4, by omega, by omega⟩

/-- The words between HEALTH_PCT and IN_BUF are reserved. -/
theorem target_reserved {off : Nat} (hlo : 0x018 ≤ wordOffset off) (hhi : wordOffset off < 0x400) :
    target off = .reserved := by
  unfold target targetOfWord
  iterate 6 rw [if_neg (by omega)]
  rw [if_pos hhi]

/-! ## Reads -/

theorem busRead_reserved {off : Nat} (hlo : 0x018 ≤ wordOffset off) (hhi : wordOffset off < 0x400) (s : State) :
    busRead off s = 0 := by
  rw [busRead, target_reserved hlo hhi]

/-- A buffer word reads as its four bytes, the lowest first (R62, R66). -/
theorem busRead_toNat_of_buffer {off : Nat} (b : Buf) (hlo : b.base ≤ wordOffset off)
    (hhi : wordOffset off < b.base + 1024) (s : State) :
    (busRead off s).toNat =
      (bufRead b (wordOffset off - b.base) s).toNat + 256 * (bufRead b (wordOffset off - b.base + 1) s).toNat +
      65536 * (bufRead b (wordOffset off - b.base + 2) s).toNat +
      16777216 * (bufRead b (wordOffset off - b.base + 3) s).toNat := by
  obtain ⟨w, hw, hword⟩ := wordOffset_eq_base_add hlo hhi
  rw [← busRead_wordOffset, hword, busRead_buffer b hw, bufReadWord_toNat, Nat.add_sub_cancel_left]

/-- Settles O31: a read is that of its word offset, which is a register, a reserved word or a word of a buffer. -/
theorem busReadByOffset : Obligations.BusReadByOffset := by
  rintro s off o master rfl
  have hreg {o : Nat} (h : wordOffset off = o) : busRead off s = busRead o s := by rw [← h, busRead_wordOffset]
  refine ⟨fun h => ?cmd, fun h => ?status, fun h => ?padLen, fun h => ?outLen, fun h => ?health, fun h => ?healthPct,
    fun hlo hhi => busRead_reserved hlo hhi s, fun hlo hhi => busRead_toNat_of_buffer .inBuf hlo hhi s,
    fun hlo hhi => busRead_toNat_of_buffer .padBuf hlo hhi s,
    fun hlo => busRead_toNat_of_buffer .outBuf hlo (wordOffset_lt off) s, deliver_read master off s⟩
  case cmd => rw [hreg h, busRead_cmd]
  case status => rw [hreg h, busRead_status, statusWord_toNat]
  case padLen => rw [hreg h, busRead_padLen, setWidth_len_toNat]
  case outLen => rw [hreg h, busRead_outLen, setWidth_len_toNat]
  case health => rw [hreg h, busRead_health, healthWord_toNat]
  case healthPct => rw [hreg h, busRead_healthPct, healthPctWord_toNat]

/-! ## Writes -/

theorem runCommand_of_decode_ok {v : Word} {i : Instr} (h : decode v = .ok i) (s : State) :
    runCommand v s = exec i s := by
  rw [runCommand, h]

theorem runCommand_of_decode_error {v : Word} {c : IllegalCommand} (h : decode v = .error c) (s : State) :
    runCommand v s = .next (illegalCommand s) := by
  rw [runCommand, h]

/-- A write that reaches a word of IN_BUF or PAD_BUF stores the word there (R67). -/
theorem busWrite_stores {off : Nat} (hlo : 0x400 ≤ wordOffset off) (hhi : wordOffset off < 0xC00) (v : Word)
    (s : State) :
    ∃ b w, wordOffset off = b.base + 4 * w ∧ busWrite off v s = .next (bufWriteWord b w v s) := by
  rcases Nat.lt_or_ge (wordOffset off) 0x800 with hin | hpad
  · obtain ⟨w, hw, hword⟩ := wordOffset_eq_base_add (b := .inBuf) hlo hin
    refine ⟨.inBuf, w, hword, ?_⟩
    rw [← busWrite_wordOffset, hword, busWrite, target_of_buffer .inBuf hw]
  · obtain ⟨w, hw, hword⟩ := wordOffset_eq_base_add (b := .padBuf) hpad hhi
    refine ⟨.padBuf, w, hword, ?_⟩
    rw [← busWrite_wordOffset, hword, busWrite, target_of_buffer .padBuf hw]

/-- A write anywhere but CMD, PAD_LEN, IN_BUF and PAD_BUF is ignored (R67). -/
theorem busWrite_ignored {off : Nat} (hcmd : wordOffset off ≠ 0x000) (hpadLen : wordOffset off ≠ 0x008)
    (hbuf : wordOffset off < 0x400 ∨ 0xC00 ≤ wordOffset off) (v : Word) (s : State) :
    busWrite off v s = .next s := by
  rcases busWrite_cases hcmd v s with ⟨h, _⟩ | ⟨b, w, hb, hw, hword, _⟩ | h
  · exact absurd h hpadLen
  · rcases hb with rfl | rfl <;> simp only [Buf.base] at hword <;> omega
  · exact h

/-- The byte at `i` of a word: the bits from `8 * i` up (R62). -/
theorem bytesOfWord_getD (v : Word) {i : Nat} (h : i < 4) : (bytesOfWord v).getD i 0 = v.extractLsb' (8 * i) 8 := by
  interval_cases i <;> rfl

theorem bufWriteWord_byteAt_same (b : Buf) (w : Nat) (v : Word) (s : State) {i : Nat} (h : i < 4) :
    (bufWriteWord b w v s).byteAt (b.base + 4 * w + i) = v.extractLsb' (8 * i) 8 := by
  rw [bufWriteWord_byteAt, if_pos (by omega), Nat.add_sub_cancel_left, bytesOfWord_getD v h]

theorem bufWriteWord_byteAt_other (b : Buf) (w : Nat) (v : Word) (s : State) {a : Nat}
    (h : ¬ (b.base + 4 * w ≤ a ∧ a < b.base + 4 * w + 4)) : (bufWriteWord b w v s).byteAt a = s.byteAt a := by
  rw [bufWriteWord_byteAt, if_neg h]

/-- Settles O32: a write runs a command, sets PAD_LEN, stores a word or is ignored, by its word offset. -/
theorem busWriteByOffset : Obligations.BusWriteByOffset := by
  rintro s off o v rfl
  refine ⟨fun h => ⟨fun i hd => ?command, fun c hd => ?illegal⟩, fun h => busWrite_padLen h v s,
    fun hlo hhi => ?store, fun hcmd hpadLen hbuf => busWrite_ignored hcmd hpadLen hbuf v s⟩
  case command => rw [busWrite_cmd h, runCommand_of_decode_ok hd]
  case illegal => rw [busWrite_cmd h, runCommand_of_decode_error hd]; rfl
  case store =>
    obtain ⟨b, w, hword, hwrite⟩ := busWrite_stores hlo hhi v s
    have hbyte {i : Nat} (hi : i < 4) := bufWriteWord_byteAt_same b w v s hi
    rw [show off &&& 0xFFC = b.base + 4 * w from hword]
    exact ⟨_, hwrite, rfl, hbyte (i := 0) (by decide), hbyte (i := 1) (by decide), hbyte (i := 2) (by decide),
      hbyte (i := 3) (by decide), fun a => bufWriteWord_byteAt_other b w v s⟩

end Sys2Proof.Machine
end

section
/-! PROOFS. Command words against the opcode table (30_encoding.md R94), and what an illegal one does (R95). -/

namespace Sys2Proof

/-! ## The fields as digits of the word -/

theorem opField_eq_iff (w : Word) (op : BitVec 4) : opField w = op ↔ w.toNat % 16 = op.toNat := by
  rw [← BitVec.toNat_inj, opField_toNat]

theorem rsvField_eq_zero_iff (w : Word) : rsvField w = 0 ↔ w.toNat / 16 % 4096 = 0 := by
  rw [← BitVec.toNat_inj, rsvField_toNat]; rfl

/-! ## The rows of the opcode table -/

/-- The lower half of a word is the mask of the rows with a LEN operand. -/
theorem and_lowHalf_toNat (w : Word) : (w &&& 0x0000FFFF).toNat = w.toNat % 65536 :=
  (BitVec.toNat_and w _).trans (Nat.and_two_pow_sub_one_eq_mod w.toNat 16)

/-- Matching a row on the lower half is having RSV 0 and the row's OP (R91, R94). -/
theorem and_lowHalf_eq_iff (w : Word) (op : BitVec 4) :
    w &&& 0x0000FFFF = op.setWidth 32 ↔ rsvField w = 0 ∧ opField w = op := by
  have hop := op.isLt
  rw [rsvField_eq_zero_iff, opField_eq_iff, ← BitVec.toNat_inj, and_lowHalf_toNat,
    BitVec.toNat_setWidth_of_le (by decide)]
  omega

/-- The row of a command with a LEN operand. -/
theorem lenRow_iff (w : Word) (op : BitVec 4) (len : Nat) :
    rsvField w = 0 ∧ opField w = op ∧ lenField w = len ↔
      w &&& 0x0000FFFF = op.setWidth 32 ∧ w.toNat / 65536 = len := by
  rw [and_lowHalf_eq_iff, lenField_eq, and_assoc]

/-- The row of RESETSTATE, whose mask is the whole word. -/
theorem resetStateRow_iff (w : Word) :
    rsvField w = 0 ∧ opField w = 5 ∧ lenField w = 0 ↔ w &&& 0xFFFFFFFF = 0x00000005 := by
  have hmask : w &&& 0xFFFFFFFF = w := BitVec.and_allOnes
  rw [hmask, rsvField_eq_zero_iff, opField_eq_iff, lenField_eq, ← BitVec.toNat_inj]
  simp only [BitVec.ofNat_eq_ofNat, BitVec.toNat_ofNat]
  omega

/-- The decoder refuses exactly the words of no row (R94). -/
theorem decode_error_iff_no_row (w : Word) :
    (∃ c, decode w = .error c) ↔
      (∀ op ∈ ([1, 2, 3, 4] : List (BitVec 4)), w &&& 0x0000FFFF ≠ op.setWidth 32) ∧
        w &&& 0xFFFFFFFF ≠ 0x00000005 := by
  rw [decode_error_iff]
  simp only [ne_eq, ← resetStateRow_iff, and_lowHalf_eq_iff, List.forall_mem_cons, List.not_mem_nil]
  tauto

/-- Settles O3: the fields the decoder asks for are those each row's mask and match fix. -/
theorem decodeMatchesOpcodeTable : Obligations.DecodeMatchesOpcodeTable := by
  intro w
  refine ⟨fun len => (decode_setSeed_iff w len).trans (lenRow_iff w 1 len),
    fun len => (decode_nextPad_iff w len).trans (lenRow_iff w 2 len),
    fun len => (decode_encrypt_iff w len).trans (lenRow_iff w 3 len),
    fun len => (decode_decrypt_iff w len).trans (lenRow_iff w 4 len),
    (decode_resetState_iff w).trans (resetStateRow_iff w), (decode_error_iff_no_row w).trans ?_⟩
  simp [and_assoc]

/-- The causes of R95, on the digits of the word. -/
theorem decode_error_iff_digits (w : Word) :
    (∃ c, decode w = .error c) ↔
      w.toNat / 16 % 4096 ≠ 0 ∨ w.toNat % 16 = 0 ∨ 6 ≤ w.toNat % 16 ∨
        (w.toNat % 16 = 5 ∧ w.toNat / 65536 ≠ 0) := by
  rw [decode_error_iff]
  simp only [ne_eq, rsvField_eq_zero_iff, opField_eq_iff, lenField_eq]
  simp only [BitVec.ofNat_eq_ofNat, BitVec.toNat_ofNat]
  omega

end Sys2Proof

namespace Sys2Proof.Machine

/-! ## The effect of an illegal word -/

theorem busWrite_illegal {off : Nat} {w : Word} (hoff : wordOffset off = 0) (hw : ∃ c, decode w = .error c)
    (s : State) : busWrite off w s = .next (illegalCommand s) := by
  obtain ⟨c, hc⟩ := hw
  rw [busWrite_cmd hoff, runCommand_of_decode_error hc]

/-- What STATUS shows above ERR is COUNTER and HAS_SECRET alone (R31). -/
theorem statusWord_above_err_congr {s t : State} (hcounter : s.counter = t.counter)
    (hsecret : s.hasSecret = t.hasSecret) :
    (statusWord s).extractLsb' 4 28 = (statusWord t).extractLsb' 4 28 := by
  rw [← BitVec.toNat_inj, statusWord_above_err, statusWord_above_err, hcounter, hsecret]

/-- Settles O8: each cause of R95 makes the decoder refuse, and a refused word only sets ERR. -/
theorem illegalWordSetsErrOnly : Obligations.IllegalWordSetsErrOnly := by
  refine ⟨fun s master off w rest hpending hoff hcause => ?_, fun s => ⟨illegalCommand s, ?write, ?err, ?above⟩⟩
  · rw [step_event hpending, deliver_write, busWrite_illegal hoff ((decode_error_iff_digits w).mpr hcause)]
    rfl
  case write => exact busWrite_illegal rfl ⟨.reservedOpcode, by decide⟩ s
  case err => rw [busRead_status, statusWord_err, illegalCommand_err]
  case above => exact statusWord_above_err_congr (illegalCommand_counter s) (illegalCommand_hasSecret s)

end Sys2Proof.Machine
end

section
/-! PROOFS. The seed store (40_seedstore.md): XOR_FOLD (R111), SETSEED (R112) and RESETSTATE (R120). -/

namespace Sys2Proof

/-- The encoder's word of a LEN that fits is `len * 65536 + op` (R91, R98). -/
theorem commandWord_eq_ofNat {len op : Nat} (hl : len < 65536) (ho : op < 16) :
    commandWord len op = BitVec.ofNat 32 (len * 65536 + op) := by
  rw [← BitVec.toNat_inj, commandWord_toNat hl ho, BitVec.toNat_ofNat, Nat.mod_eq_of_lt (by omega)]

end Sys2Proof

namespace Sys2Proof.Machine

/-! ## XOR_FOLD -/

@[simp] theorem xorFold_nil : xorFold [] = Secret.zero := rfl

/-- Folding goes on from where the first bytes left it (the loop of R111). -/
theorem xorFoldFrom_append (S : Secret) (i : Nat) (raw raw' : List Byte) :
    xorFoldFrom S i (raw ++ raw') = xorFoldFrom (xorFoldFrom S i raw) (i + raw.length) raw' := by
  induction raw generalizing S i with
  | nil => rfl
  | cons b raw ih =>
    rw [List.cons_append, xorFoldFrom, ih, xorFoldFrom, List.length_cons, Nat.add_assoc, Nat.add_comm 1]

/-- Folding one byte in as raw seed byte `i` changes index `i mod 32` only (R111). -/
theorem xorFoldFrom_singleton_get (S : Secret) (i : Nat) (b : Byte) (k : Fin 32) :
    (xorFoldFrom S i [b]).get k = if k.val = i % 32 then S.get k ^^^ b else S.get k := by
  simp only [xorFoldFrom, Vector.get_eq_getElem, Vector.getElem_set, eq_comm (a := i % 32)]
  split
  · next h => simp only [h]
  · rfl

/-- Settles O13: the fold of one more byte goes on from the fold of those before it. -/
theorem xorFoldByRule : Obligations.XorFoldByRule := by
  refine ⟨fun raw => rfl, xorFold_nil, fun raw b k => ?_⟩
  rw [xorFold, xorFoldFrom_append, Nat.zero_add, xorFoldFrom_singleton_get, ← xorFold]

/-- The Secret of R112's example. -/
theorem xorFold_seedBytes : xorFold seedBytes = exampleSecret := by decide

/-! ## SETSEED -/

theorem execSetSeed_of_gt {len : Nat} (h : 1024 < len) (s : State) :
    execSetSeed len s = .next (finish .lengthOutOfRange s) := by
  rcases execSetSeed_cases len s with ⟨_, e⟩ | ⟨_, _⟩ | ⟨_, _, _⟩
  · exact e
  all_goals omega

theorem execSetSeed_of_lt {len : Nat} (h : len < 16) (s : State) :
    execSetSeed len s = .next (finish .seedTooShort s) := by
  rcases execSetSeed_cases len s with ⟨_, _⟩ | ⟨_, e⟩ | ⟨_, _, _⟩
  case inr.inl => exact e
  all_goals omega

theorem execSetSeed_of_legal {len : Nat} (hmin : 16 ≤ len) (hmax : len ≤ 1024) (s : State) :
    execSetSeed len s = .next (finish .ok (entangle (reduce s.build.reduce (inputBytes len s)) s)) := by
  rcases execSetSeed_cases len s with ⟨_, _⟩ | ⟨_, _⟩ | ⟨_, _, e⟩
  case inr.inr => exact e
  all_goals omega

/-- STATUS right after a SETSEED that succeeds shows HAS_SECRET alone (R31, R112). -/
theorem statusWord_entangle (S : Secret) (s : State) : statusWord (finish .ok (entangle S s)) = 0x00000100 := by
  rw [← BitVec.toNat_inj, statusWord_toNat]
  simp [StatusCode.code]

/-- Settles O11: the three answers of SETSEED by the range LEN is in, and the Secret of the example. -/
theorem setSeedByRule : Obligations.SetSeedByRule := by
  refine ⟨fun len s => ⟨fun hlen => commandWord_eq_ofNat (by omega) (by decide), fun h => execSetSeed_of_gt h s,
    fun h => execSetSeed_of_lt h s, fun hmin hmax => execSetSeed_of_legal hmin hmax s⟩,
    fun s hreduce hraw => ?sample⟩
  case sample =>
    have hdecode : decode 0x00100001 = .ok (.setSeed 16) := by decide
    have hsecret : reduce s.build.reduce (inputBytes 16 s) = exampleSecret := by
      rw [hreduce, inputBytes, hraw, reduce, xorFold_seedBytes]
    refine ⟨finish .ok (entangle exampleSecret s), ?_, rfl, rfl, rfl, rfl, statusWord_entangle _ s⟩
    rw [busWrite_cmd (by decide), runCommand_of_decode_ok hdecode, exec_setSeed,
      execSetSeed_of_legal (by decide) (by decide), hsecret]

/-! ## RESETSTATE -/

/-- Everything that RESETSTATE clears is clear in an unentangled state (R23). -/
theorem disentangle_of_unentangled {s : State} (hpaired : s.SecretPaired) (h : s.hasSecret = false) :
    disentangle s = s := by
  obtain ⟨hcounter, hsecret⟩ := hpaired h
  rw [disentangle, ← hcounter, ← hsecret, ← h]

/-- STATUS right after a RESETSTATE reads 0, whatever the state before it (R31, R120). -/
theorem statusWord_disentangle (s : State) : statusWord (finish .ok (disentangle s)) = 0x00000000 := by
  rw [← BitVec.toNat_inj, statusWord_toNat]
  simp [StatusCode.code]

/-- HEALTH right after a RESETSTATE shows 256 pads remaining and the healthy class (R35, R120). -/
theorem healthWord_disentangle (s : State) : healthWord (finish .ok (disentangle s)) = 0x00000100 := by
  have hhealthy : (healthStatus 0).code = 0 := by decide
  rw [← BitVec.toNat_inj, healthWord_toNat, finish_counter, disentangle_counter, hhealthy]
  simp

theorem execNextPad_of_unentangled {s : State} (h : s.hasSecret = false) (len : Nat) :
    execNextPad len s = .next (finish .notEntangled s) := by
  rcases execNextPad_cases len s with ⟨_, e⟩ | ⟨h', _⟩ | ⟨h', _⟩
  · exact e
  all_goals simp [h] at h'

/-- No command but a SETSEED of legal length entangles PADGEN (R22, R112). -/
theorem exec_keeps_unentangled {i : Instr} {s t : State}
    (hi : ∀ len, i = .setSeed len → ¬ (16 ≤ len ∧ len ≤ 1024)) (hs : s.hasSecret = false)
    (h : exec i s = .next t) : t.hasSecret = false := by
  rcases exec_cases h with ⟨len, rfl, hseed⟩ | ⟨len, rfl, hpad⟩ | ⟨len, _, hcipher⟩ | ⟨rfl, rfl⟩
  · rcases hseed with ⟨_, rfl⟩ | ⟨_, rfl⟩ | ⟨hmin, hmax, _⟩
    · exact hs
    · exact hs
    · exact absurd ⟨hmin, hmax⟩ (hi len rfl)
  · rcases hpad with ⟨_, rfl⟩ | ⟨_, _, rfl⟩ | ⟨_, _, _, rfl⟩ <;> exact hs
  · rcases hcipher with ⟨_, rfl⟩ | ⟨_, _, _, rfl⟩ | ⟨_, _, rfl⟩ <;> exact hs
  · rfl

/-- No host event but a CMD write that runs a SETSEED of legal length entangles PADGEN. -/
theorem deliver_keeps_unentangled {e : HostEvent} {s t : State}
    (he : ∀ len, e.Runs (.setSeed len) → ¬ (16 ≤ len ∧ len ≤ 1024)) (hs : s.hasSecret = false)
    (h : deliver e s = .next t) : t.hasSecret = false := by
  rcases deliver_cases h with ⟨m, off, _, rfl⟩ | ⟨m, off, w, i, hw, ho, hd, hexec⟩ | ⟨m, off, w, c, _, _, _, rfl⟩ |
    ⟨m, off, v, _, _, rfl⟩ | ⟨m, off, v, b, w, _, _, _, _, rfl⟩ | ⟨m, off, v, _, _, rfl⟩ | ⟨_, rfl⟩
  case inr.inl =>
    have hruns : e.Runs i := (HostEvent.runs_iff e i).mpr ⟨m, off, w, hw, ho, hd⟩
    exact exec_keeps_unentangled (fun len hi => he len (hi ▸ hruns)) hs hexec
  all_goals simp [hs]

/-- Settles O12: the clauses about one command are its equations, and the last one says that being unentangled is kept
by every event the hypothesis allows. -/
theorem resetStateByRule : Obligations.ResetStateByRule := by
  refine ⟨rfl, fun w hlow hw => ?refused, fun s => rfl, fun s hpaired h => ?unentangled, fun s t ht => ?reads,
    fun s t u es ht hes hu len => ?nextPad⟩
  case refused =>
    have hne : w.toNat ≠ 5 := fun h => hw (BitVec.eq_of_toNat_eq h)
    exact (decode_error_iff_digits w).mpr (.inr (.inr (.inr (by omega))))
  case unentangled =>
    rw [exec_resetState, execResetState, disentangle_of_unentangled hpaired h]
    rfl
  case reads =>
    cases ht
    exact ⟨statusWord_disentangle s, healthWord_disentangle s⟩
  case nextPad =>
    cases ht
    have hunentangled : u.hasSecret = false :=
      deliverAll_invariant (P := fun s => s.hasSecret = false)
        (fun e he _ _ hs hd => deliver_keeps_unentangled (hes e he) hs hd) rfl hu
    exact execNextPad_of_unentangled hunentangled len

end Sys2Proof.Machine
end

section
/-! PROOFS. The keystream generator (41_keystream.md): NEXTPAD (R133). -/

namespace Sys2Proof.Machine

/-! ## The pad in PAD_BUF -/

@[simp] theorem finish_bufRead (c : StatusCode) (b : Buf) (i : Nat) (s : State) :
    bufRead b i (finish c s) = bufRead b i s := rfl

@[simp] theorem advanceCounter_bufRead (b : Buf) (i : Nat) (s : State) :
    bufRead b i (advanceCounter s) = bufRead b i s := rfl

@[simp] theorem finish_bufReadBytes (c : StatusCode) (b : Buf) (n : Nat) (s : State) :
    bufReadBytes b n (finish c s) = bufReadBytes b n s := rfl

@[simp] theorem advanceCounter_bufReadBytes (b : Buf) (n : Nat) (s : State) :
    bufReadBytes b n (advanceCounter s) = bufReadBytes b n s := rfl

/-- A pad of `len` bytes reads back whole (R133). -/
theorem bufReadBytes_issuePad_derive (k : Byte) (S : Secret) (c : BitVec 8) (len : Nat) (s : State) :
    bufReadBytes .padBuf len (issuePad (derive k S c len) s) = derive k S c len := by
  have h := bufReadBytes_issuePad (derive k S c len) s
  rwa [derive_length] at h

/-- Byte `i` of PAD_BUF is pad byte `i` (R133). -/
theorem bufRead_issuePad_derive (k : Byte) (S : Secret) (c : BitVec 8) {len i : Nat} (h : i < len) (s : State) :
    bufRead .padBuf i (issuePad (derive k S c len) s) = padByte k S c i := by
  have hpad := (bufReadBytes_eq_iff .padBuf _ _).mp (bufReadBytes_issuePad (derive k S c len) s)
  rw [hpad i (by rwa [derive_length]), derive_getElem]

/-- Issuing a pad writes no byte outside the pad's range in PAD_BUF (R133). -/
theorem issuePad_byteAt_other {pad : List Byte} {a : Nat} (h : ¬ (0x800 ≤ a ∧ a < 0x800 + pad.length)) (s : State) :
    (issuePad pad s).byteAt a = s.byteAt a := by
  rw [issuePad_byteAt, if_neg h]

/-- PAD_LEN holds the whole length of a pad of at most PAD_MAX bytes (R32, R133). -/
theorem issuePad_padLen_toNat {pad : List Byte} (h : pad.length ≤ 1024) (s : State) :
    (issuePad pad s).padLen.toNat = pad.length := by
  rw [issuePad_padLen, BitVec.toNat_ofNat, Nat.mod_eq_of_lt (by omega)]

/-! ## NEXTPAD -/

theorem execNextPad_of_illegal {len : Nat} {s : State} (hs : s.hasSecret = true) (h : len < 1 ∨ 1024 < len) :
    execNextPad len s = .next (finish .lengthOutOfRange s) := by
  rcases execNextPad_cases len s with ⟨hs', _⟩ | ⟨_, _, e⟩ | ⟨_, _, _, _⟩
  case inr.inl => exact e
  case inl => simp [hs] at hs'
  case inr.inr => omega

theorem execNextPad_of_legal {len : Nat} {s : State} (hs : s.hasSecret = true) (hmin : 1 ≤ len) (hmax : len ≤ 1024) :
    execNextPad len s =
      .next (finish .ok (advanceCounter (issuePad (derive s.build.k s.secret s.counter len) s))) := by
  rcases execNextPad_cases len s with ⟨hs', _⟩ | ⟨_, _, _⟩ | ⟨_, _, _, e⟩
  case inr.inr => exact e
  case inl => simp [hs] at hs'
  case inr.inl => omega

/-- Settles O17: the two errors in R133's order, the success field by field, and the pad of the example. -/
theorem nextPadByRule : Obligations.NextPadByRule := by
  refine ⟨fun len s => ⟨fun hlen => commandWord_eq_ofNat (by omega) (by decide),
    fun hs => execNextPad_of_unentangled hs len, fun hs hlen => execNextPad_of_illegal hs hlen,
    fun hs hmin hmax => ⟨_, execNextPad_of_legal hs hmin hmax, rfl, ?padLen, advance_toNat s.counter,
      fun i hi => ?byte, fun a ha => ?frame⟩⟩, fun s hk hs hsecret hcounter => ?sample⟩
  case padLen =>
    have hlen := derive_length s.build.k s.secret s.counter len
    rw [finish_padLen, advanceCounter_padLen, issuePad_padLen_toNat (by rwa [hlen]), hlen]
  case byte =>
    rw [finish_bufRead, advanceCounter_bufRead, bufRead_issuePad_derive _ _ _ hi, padByte_toNat]
    rfl
  case frame =>
    rw [finish_byteAt, advanceCounter_byteAt, issuePad_byteAt_other (by rwa [derive_length])]
  case sample =>
    have hdecode : decode 0x00200002 = .ok (.nextPad 32) := by decide
    refine ⟨finish .ok (advanceCounter (issuePad (derive 7 exampleSecret 0 32) s)), ?_, ?_, rfl, ?_, rfl⟩
    · rw [busWrite_cmd (by decide), runCommand_of_decode_ok hdecode, exec_nextPad,
        execNextPad_of_legal hs (by decide) (by decide), hk, hsecret, hcounter]
    · rw [finish_bufReadBytes, advanceCounter_bufReadBytes, bufReadBytes_issuePad_derive]
      decide
    · rw [finish_counter, advanceCounter_counter, issuePad_counter, hcounter]
      rfl

end Sys2Proof.Machine
end

section
/-! PROOFS. The cipher (43_cipher.md): ENCRYPT (R160) and DECRYPT (R161). -/

namespace Sys2Proof.Machine

/-! ## The bytes a cipher command computes, and what it leaves of them -/

/-- The computed bytes, index by index (R160, R161). -/
theorem cipherBytes_eq_map (len : Nat) (s : State) :
    cipherBytes len s = (List.range len).map fun i => bufRead .inBuf i s ^^^ bufRead .padBuf i s :=
  List.ext_getElem (by simp) fun i _ _ => by simp

/-- The computed bytes, from what the two operand ranges read as (R92, R164). -/
theorem cipherBytes_of_operands {len : Nat} {s : State} {input pad : List Byte}
    (hinput : bufReadBytes .inBuf len s = input) (hpad : bufReadBytes .padBuf len s = pad) :
    cipherBytes len s = xorCombine input pad := by
  rw [cipherBytes, inputBytes, padBytes, hinput, hpad]

/-- OUT_LEN holds the whole LEN of a command whose LEN is at most PAD_LEN (R34, R162). -/
theorem cipherDone_outLen_toNat {len : Nat} {s : State} (h : len ≤ s.padLen.toNat) :
    (cipherDone (cipherBytes len s) s).outLen.toNat = len := by
  have hlt : len < 2 ^ 11 := h.trans_lt s.padLen.isLt
  rw [cipherDone_outLen, cipherBytes_length, BitVec.toNat_ofNat, Nat.mod_eq_of_lt hlt]

/-- The result reads back whole from OUT_BUF (R162). -/
theorem bufReadBytes_cipherDone_cipherBytes (len : Nat) (s : State) :
    bufReadBytes .outBuf len (cipherDone (cipherBytes len s) s) = cipherBytes len s := by
  have h := bufReadBytes_cipherDone (cipherBytes len s) s
  rwa [cipherBytes_length] at h

/-- Byte `i` of OUT_BUF is byte `i` of the input combined with byte `i` of the pad (R160, R161). -/
theorem bufRead_cipherDone_cipherBytes {len i : Nat} (h : i < len) (s : State) :
    bufRead .outBuf i (cipherDone (cipherBytes len s) s) = bufRead .inBuf i s ^^^ bufRead .padBuf i s := by
  have hout := (bufReadBytes_eq_iff .outBuf _ _).mp (bufReadBytes_cipherDone (cipherBytes len s) s)
  rw [hout i (by rwa [cipherBytes_length]), cipherBytes_getElem]

/-- The result is stored in its own range of OUT_BUF only (R160, R161). -/
theorem cipherDone_cipherBytes_byteAt_other {len a : Nat} (h : ¬ (0xC00 ≤ a ∧ a < 0xC00 + len)) (s : State) :
    (cipherDone (cipherBytes len s) s).byteAt a = s.byteAt a := by
  rw [cipherDone_byteAt, cipherBytes_length, if_neg h]

/-! ## ENCRYPT -/

theorem execEncrypt_of_gt {len : Nat} {s : State} (h : s.padLen.toNat < len) :
    execEncrypt len s = .next (cipherFail .padTooShort s) := by
  rcases execEncrypt_cases len s with ⟨_, e⟩ | ⟨_, _⟩
  · exact e
  · omega

theorem execEncrypt_of_le {len : Nat} {s : State} (h : len ≤ s.padLen.toNat) :
    execEncrypt len s = .next (cipherDone (cipherBytes len s) s) := by
  rcases execEncrypt_cases len s with ⟨_, _⟩ | ⟨_, e⟩
  · omega
  · exact e

/-- Settles O24: the two answers of ENCRYPT on either side of PAD_LEN, and the ciphertext of the example. -/
theorem encryptByRule : Obligations.EncryptByRule := by
  refine ⟨fun len s => ⟨fun hlen => commandWord_eq_ofNat (by omega) (by decide), fun h => execEncrypt_of_gt h,
    fun ⟨hpad, _⟩ h => execEncrypt_of_gt (by omega), fun h => ⟨_, execEncrypt_of_le h, rfl, cipherDone_outLen_toNat h,
      fun i hi => bufRead_cipherDone_cipherBytes hi s, fun a ha => cipherDone_cipherBytes_byteAt_other ha s⟩⟩,
    fun s hpadLen hinput hpad => ?sample⟩
  case sample =>
    have hdecode : decode 0x000B0003 = .ok (.encrypt 11) := by decide
    have hle : 11 ≤ s.padLen.toNat := by rw [hpadLen]; decide
    refine ⟨cipherDone (cipherBytes 11 s) s, ?_, ?_, ?_, rfl⟩
    · rw [busWrite_cmd (by decide), runCommand_of_decode_ok hdecode, exec_encrypt, execEncrypt_of_le hle]
    · rw [bufReadBytes_cipherDone_cipherBytes, cipherBytes_of_operands hinput hpad]
      decide
    · rw [cipherDone_outLen, cipherBytes_length]
      rfl

/-! ## DECRYPT -/

theorem execDecrypt_of_gt {len : Nat} {s : State} (h : s.padLen.toNat < len) :
    execDecrypt len s = .next (cipherFail .padTooShort s) := by
  rcases execDecrypt_cases len s with ⟨_, e⟩ | ⟨_, _, _⟩ | ⟨_, _, _⟩
  · exact e
  all_goals omega

theorem execDecrypt_of_illFormed {len : Nat} {s : State} (h : len ≤ s.padLen.toNat)
    (hM : utf8WellFormed (cipherBytes len s) = false) :
    execDecrypt len s = .next (cipherFail .decodeMismatch s) := by
  rcases execDecrypt_cases len s with ⟨_, _⟩ | ⟨_, _, e⟩ | ⟨_, hM', _⟩
  · omega
  · exact e
  · simp [hM] at hM'

theorem execDecrypt_of_wellFormed {len : Nat} {s : State} (h : len ≤ s.padLen.toNat)
    (hM : utf8WellFormed (cipherBytes len s) = true) :
    execDecrypt len s = .next (cipherDone (cipherBytes len s) s) := by
  rcases execDecrypt_cases len s with ⟨_, _⟩ | ⟨_, hM', _⟩ | ⟨_, _, e⟩
  · omega
  · simp [hM] at hM'
  · exact e

/-- Settles O25: the three answers of DECRYPT in R161's order, the message of the first example, and the second
example's pads, bytes and DECODE_MISMATCH. -/
theorem decryptByRule : Obligations.DecryptByRule := by
  refine ⟨fun len s M hM => ?rule, fun s hpadLen hinput hpad => ?sample, by decide,
    fun s hle hinput hpad => ?mismatch⟩
  case rule =>
    obtain rfl : M = cipherBytes len s := by rw [hM, cipherBytes_eq_map]
    exact ⟨fun hlen => commandWord_eq_ofNat (by omega) (by decide), fun h => execDecrypt_of_gt h,
      fun h hill => execDecrypt_of_illFormed h hill,
      fun h hwell => ⟨_, execDecrypt_of_wellFormed h hwell, rfl, cipherDone_outLen_toNat h,
        bufReadBytes_cipherDone_cipherBytes len s, fun a ha => cipherDone_cipherBytes_byteAt_other ha s⟩⟩
  case sample =>
    have hdecode : decode 0x000B0004 = .ok (.decrypt 11) := by decide
    have hle : 11 ≤ s.padLen.toNat := by rw [hpadLen]; decide
    have hM : cipherBytes 11 s = utf8Encode "hello world".toList := by
      rw [cipherBytes_of_operands hinput hpad]
      decide
    have hwell : utf8WellFormed (cipherBytes 11 s) = true := by
      rw [hM]
      decide
    refine ⟨cipherDone (cipherBytes 11 s) s, ?_, ?_, ?_, rfl⟩
    · rw [busWrite_cmd (by decide), runCommand_of_decode_ok hdecode, exec_decrypt,
        execDecrypt_of_wellFormed hle hwell]
    · rw [bufReadBytes_cipherDone_cipherBytes, hM]
    · rw [cipherDone_outLen, cipherBytes_length]
      rfl
  case mismatch =>
    have hdecode : decode 0x00060004 = .ok (.decrypt 6) := by decide
    have hill : utf8WellFormed (cipherBytes 6 s) = false := by
      rw [cipherBytes_of_operands hinput hpad]
      decide
    rw [busWrite_cmd (by decide), runCommand_of_decode_ok hdecode, exec_decrypt, execDecrypt_of_illFormed hle hill]
    rfl

end Sys2Proof.Machine
end

section
/-! PROOFS. The UTF-8 check (43_cipher.md): the scan of bytes takes exactly the concatenations of R163's rows. -/

namespace Sys2Proof.Machine

/-! ## R163's rows as lists of ranges -/

theorem ByteRange.holds_iff (r : ByteRange) (b : Byte) :
    r.holds b = true ↔ r.lo.toNat ≤ b.toNat ∧ b.toNat ≤ r.hi.toNat := by
  simp [ByteRange.holds, BitVec.le_def]

/-- What R163's ranges of one byte (E0, ED, F0, F4) say of a number. -/
theorem between_self_iff (m n : Nat) : n ≤ m ∧ m ≤ n ↔ m = n := by omega

/-- The ranges of all the bytes of a row, the first one's before the others. -/
def Utf8Row.ranges (row : Utf8Row) : List ByteRange := row.first :: row.rest

/-- The bytes are as many as the ranges, each in the range at its place. -/
def Fills (rs : List ByteRange) (q : List Byte) : Prop := List.Forall₂ (fun r b => r.holds b = true) rs q

/-- The table of the check gives R163's sequences: at each length, the two name the same ranges. -/
theorem utf8Sequence_iff_fills_row (q : List Byte) :
    Utf8Sequence (q.map BitVec.toNat) ↔ ∃ row ∈ utf8Table, Fills row.ranges q := by
  simp only [utf8Table, List.exists_mem_cons_iff, List.not_mem_nil, false_and, exists_false, or_false]
  rcases q with _ | ⟨a, _ | ⟨b, _ | ⟨c, _ | ⟨d, _ | ⟨e, q⟩⟩⟩⟩⟩
  all_goals
    simp [Utf8Sequence, Utf8Row.ranges, Fills, contRange, ByteRange.holds_iff, between_self_iff, and_assoc]

/-! ## The row of a first byte -/

/-- The first-byte ranges of two rows do not meet. -/
theorem utf8Table_apart : ∀ row ∈ utf8Table, ∀ row' ∈ utf8Table,
    row = row' ∨ row.first.hi.toNat < row'.first.lo.toNat ∨ row'.first.hi.toNat < row.first.lo.toNat := by decide

theorem utf8Table_row_unique {row row' : Utf8Row} (hrow : row ∈ utf8Table) (hrow' : row' ∈ utf8Table) {b : Byte}
    (hb : row.first.holds b = true) (hb' : row'.first.holds b = true) : row = row' := by
  rw [ByteRange.holds_iff] at hb hb'
  rcases utf8Table_apart row hrow row' hrow' with heq | hapart
  · exact heq
  · omega

theorem row_of_utf8Row {b : Byte} {row : Utf8Row} (h : utf8Row b = some row) :
    row ∈ utf8Table ∧ row.first.holds b = true := by
  rw [utf8Row] at h
  exact ⟨List.mem_of_find?_eq_some h, List.find?_some (p := fun r : Utf8Row => r.first.holds b) h⟩

theorem utf8Row_eq_some_iff (b : Byte) (row : Utf8Row) :
    utf8Row b = some row ↔ row ∈ utf8Table ∧ row.first.holds b = true := by
  refine ⟨row_of_utf8Row, fun ⟨hrow, hb⟩ => ?_⟩
  cases h : utf8Row b with
  | none => exact absurd hb (List.find?_eq_none.mp h row hrow)
  | some row' =>
    obtain ⟨hrow', hb'⟩ := row_of_utf8Row h
    rw [utf8Table_row_unique hrow' hrow hb' hb]

/-! ## The scan -/

theorem utf8Scan_want_iff (r : ByteRange) (rs : List ByteRange) (b : Byte) (M : List Byte) :
    utf8Scan (r :: rs) (b :: M) = true ↔ r.holds b = true ∧ utf8Scan rs M = true := by
  rw [utf8Scan, Bool.and_eq_true]

theorem utf8Scan_first_iff (b : Byte) (M : List Byte) :
    utf8Scan [] (b :: M) = true ↔
      ∃ row ∈ utf8Table, row.first.holds b = true ∧ utf8Scan row.rest M = true := by
  simp only [utf8Scan, ← and_assoc, ← utf8Row_eq_some_iff]
  cases utf8Row b <;> simp

/-- What a scan takes is the bytes still wanted and then sequences of R163. -/
theorem exists_sequences_of_utf8Scan {want : List ByteRange} {M : List Byte} (h : utf8Scan want M = true) :
    ∃ (p : List Byte) (qs : List (List Byte)), M = p ++ qs.flatten ∧ Fills want p ∧
      ∀ q ∈ qs, Utf8Sequence (q.map BitVec.toNat) := by
  induction M generalizing want with
  | nil =>
    have hwant : want = [] := List.isEmpty_iff.mp h
    exact ⟨[], [], rfl, hwant ▸ .nil, by simp⟩
  | cons b M ih =>
    cases want with
    | cons r rs =>
      obtain ⟨hb, hM⟩ := (utf8Scan_want_iff r rs b M).mp h
      obtain ⟨p, qs, rfl, hp, hqs⟩ := ih hM
      exact ⟨b :: p, qs, rfl, .cons hb hp, hqs⟩
    | nil =>
      obtain ⟨row, hrow, hb, hM⟩ := (utf8Scan_first_iff b M).mp h
      obtain ⟨p, qs, rfl, hp, hqs⟩ := ih hM
      have hq : Utf8Sequence ((b :: p).map BitVec.toNat) :=
        (utf8Sequence_iff_fills_row _).mpr ⟨row, hrow, .cons hb hp⟩
      exact ⟨[], (b :: p) :: qs, rfl, .nil, List.forall_mem_cons.mpr ⟨hq, hqs⟩⟩

/-- A scan goes over the bytes it wants and on with the rest. -/
theorem utf8Scan_append_of_fills {want : List ByteRange} {p M : List Byte} (hp : Fills want p)
    (hM : utf8WellFormed M = true) : utf8Scan want (p ++ M) = true := by
  induction hp with
  | nil => exact hM
  | cons hb _ ih => exact (utf8Scan_want_iff _ _ _ _).mpr ⟨hb, ih⟩

/-- A sequence of R163 before a well-formed rest leaves the whole well-formed. -/
theorem utf8WellFormed_sequence_append {q M : List Byte} (hq : Utf8Sequence (q.map BitVec.toNat))
    (hM : utf8WellFormed M = true) : utf8WellFormed (q ++ M) = true := by
  obtain ⟨row, hrow, hfills⟩ := (utf8Sequence_iff_fills_row q).mp hq
  obtain ⟨b, p, hb, hp, rfl⟩ := List.forall₂_cons_left_iff.mp hfills
  exact (utf8Scan_first_iff b (p ++ M)).mpr ⟨row, hrow, hb, utf8Scan_append_of_fills hp hM⟩

theorem utf8WellFormed_flatten {qs : List (List Byte)} (hqs : ∀ q ∈ qs, Utf8Sequence (q.map BitVec.toNat)) :
    utf8WellFormed qs.flatten = true := by
  induction qs with
  | nil => rfl
  | cons q qs ih =>
    obtain ⟨hq, hqs⟩ := List.forall_mem_cons.mp hqs
    exact utf8WellFormed_sequence_append hq (ih hqs)

/-- Settles O27: the scan that wants nothing takes sequences of R163 only, by induction on the bytes, and it takes
every concatenation of them, by induction on the sequences. -/
theorem utf8CheckMatchesTable : Obligations.Utf8CheckMatchesTable := by
  refine ⟨fun M => ⟨fun h => ?sequences, ?wellFormed⟩, by decide, by decide, by decide⟩
  case sequences =>
    obtain ⟨p, qs, hM, hp, hqs⟩ := exists_sequences_of_utf8Scan h
    rw [List.forall₂_nil_left_iff.mp hp, List.nil_append] at hM
    exact ⟨qs, hM, hqs⟩
  case wellFormed =>
    rintro ⟨qs, rfl, hqs⟩
    exact utf8WellFormed_flatten hqs

end Sys2Proof.Machine
end

section
/-! PROOFS. Pad health (44_health.md): the HEALTH and HEALTH_PCT registers (R180, R181) and the thresholds of the health
class (R182). -/

namespace Sys2Proof.Machine

/-! ## The thresholds as bounds on COUNTER -/

/-- Above 20 percent is 52 pads remaining or more: 20 percent is 51.2 pads (R182). -/
theorem above_healthWarnPct_iff (c : BitVec 8) :
    padsRemaining c * 100 > Config.healthWarnPct * 256 ↔ c.toNat ≤ 204 := by
  unfold padsRemaining Config.healthWarnPct
  omega

/-- Above 5 percent is 13 pads remaining or more: 5 percent is 12.8 pads (R182). -/
theorem above_healthCritPct_iff (c : BitVec 8) :
    padsRemaining c * 100 > Config.healthCritPct * 256 ↔ c.toNat ≤ 243 := by
  unfold padsRemaining Config.healthCritPct
  omega

theorem healthStatus_eq (c : BitVec 8) :
    healthStatus c = if c.toNat ≤ 204 then .healthy else if c.toNat ≤ 243 then .warning else .critical := by
  simp only [healthStatus, above_healthWarnPct_iff, above_healthCritPct_iff]

theorem healthStatus_healthy_iff (c : BitVec 8) : healthStatus c = .healthy ↔ c.toNat ≤ 204 := by
  rw [healthStatus_eq]
  split_ifs <;> simp <;> omega

theorem healthStatus_warning_iff (c : BitVec 8) : healthStatus c = .warning ↔ 205 ≤ c.toNat ∧ c.toNat ≤ 243 := by
  rw [healthStatus_eq]
  split_ifs <;> simp <;> omega

theorem healthStatus_critical_iff (c : BitVec 8) : healthStatus c = .critical ↔ 244 ≤ c.toNat := by
  rw [healthStatus_eq]
  split_ifs <;> simp <;> omega

/-- HSTATUS 3 names no class (R182). -/
theorem HealthStatus.code_ne_three (h : HealthStatus) : h.code ≠ 3 := by
  cases h <;> decide

/-- Settles O38: each class is a range of COUNTER, and R182's other forms of it are arithmetic on that range. -/
theorem healthThresholds : Obligations.HealthThresholds := by
  intro c
  have hc := c.isLt
  rw [healthStatus_healthy_iff, healthStatus_warning_iff, healthStatus_critical_iff]
  refine ⟨?_, ?_, Iff.rfl, ?_, Iff.rfl, ?_, Iff.rfl, ?_, ?_, (healthStatus c).code_ne_three⟩ <;> omega

/-! ## The registers -/

/-- HEALTH_PCT shows between 1 and 256 pads of 100/256 percent each (R181). -/
theorem healthPctWord_range (s : State) : 100 ≤ (healthPctWord s).toNat ∧ (healthPctWord s).toNat ≤ 25600 := by
  have hc := s.counter.isLt
  rw [healthPctWord_toNat]
  omega

/-- The example of R180: 51 pads remain at COUNTER 205, where the warning class begins. -/
theorem healthWord_of_counter_205 {s : State} (h : s.counter = 205) : healthWord s = 0xCD010033 := by
  have hwarning : healthStatus 205 = .warning := (healthStatus_warning_iff 205).mpr (by decide)
  rw [← BitVec.toNat_inj, healthWord_toNat, h, hwarning]
  rfl

/-- The example of R181: 5100/256 percent. -/
theorem healthPctWord_of_counter_205 {s : State} (h : s.counter = 205) : healthPctWord s = 0x000013EC := by
  rw [← BitVec.toNat_inj, healthPctWord_toNat, h]
  rfl

/-- Settles O37: the two offsets read the health words, whose values are known as numbers. -/
theorem healthRegisters : Obligations.HealthRegisters := by
  simp only [Obligations.HealthRegisters, busRead_health, busRead_healthPct]
  exact ⟨fun s => ⟨healthWord_toNat s, healthPctWord_toNat s, healthPctWord_range s⟩,
    fun _ h => ⟨healthWord_of_counter_205 h, healthPctWord_of_counter_205 h⟩⟩

end Sys2Proof.Machine
end

section
/-! PROOFS. Base64 (45_host_layer.md): the decoder inverts the encoder of R193, and fails exactly as R194 says. -/

namespace Sys2Proof.Machine

/-! ## The alphabet -/

/-- `base64Value` reads the alphabet of R193 back, and no other character. -/
theorem base64Value_eq_some_iff {ch : Char} {v : Nat} :
    base64Value ch = some v ↔ v < 64 ∧ base64Char v = ch := by
  constructor
  · intro h
    unfold base64Value at h
    split_ifs at h with hupper hlower hdigit hplus hslash <;> cases h
    · have hlo : 65 ≤ ch.toNat := hupper.1
      have hhi : ch.toNat ≤ 90 := hupper.2
      refine ⟨by omega, ?_⟩
      rw [base64Char, if_pos (by omega), Nat.add_sub_cancel' hlo, Char.ofNat_toNat]
    · have hlo : 97 ≤ ch.toNat := hlower.1
      have hhi : ch.toNat ≤ 122 := hlower.2
      refine ⟨by omega, ?_⟩
      rw [base64Char, if_neg (by omega), if_pos (by omega), Nat.add_sub_cancel, Nat.add_sub_cancel' hlo,
        Char.ofNat_toNat]
    · have hlo : 48 ≤ ch.toNat := hdigit.1
      have hhi : ch.toNat ≤ 57 := hdigit.2
      refine ⟨by omega, ?_⟩
      rw [base64Char, if_neg (by omega), if_neg (by omega), if_pos (by omega), Nat.add_sub_cancel,
        Nat.add_sub_cancel' hlo, Char.ofNat_toNat]
    · exact ⟨by decide, hplus.symm⟩
    · exact ⟨by decide, hslash.symm⟩
  · have hall : ∀ v < 64, base64Value (base64Char v) = some v := by decide
    rintro ⟨hv, rfl⟩
    exact hall v hv

theorem base64Value_base64Char {v : Nat} (h : v < 64) : base64Value (base64Char v) = some v :=
  base64Value_eq_some_iff.mpr ⟨h, rfl⟩

theorem base64Value_base64Char_mod (n : Nat) : base64Value (base64Char (n % 64)) = some (n % 64) :=
  base64Value_base64Char (by omega)

@[simp] theorem base64Value_pad : base64Value '=' = none := by decide

/-- `=` is no character of the alphabet, so padding is never mistaken for a value (R193). -/
theorem base64Char_ne_pad {v : Nat} (h : v < 64) : base64Char v ≠ '=' := by
  intro hpad
  have hvalue := base64Value_base64Char h
  simp [hpad] at hvalue

/-! ## Decoding inverts encoding -/

/-- A group that does not end in `=` decodes on its own, whatever text follows it. -/
theorem base64Decode_group {c0 c1 c2 c3 : Char} (h : c3 ≠ '=') (rest : Text) :
    base64Decode (c0 :: c1 :: c2 :: c3 :: rest) =
      (base64Group c0 c1 c2 c3).bind fun bs => (base64Decode rest).map (bs ++ ·) := by
  rw [base64Decode, if_neg h]
  cases base64Group c0 c1 c2 c3 <;> cases base64Decode rest <;> rfl

/-- Encoding loses nothing: decoding gives the bytes back (R194). -/
theorem base64Decode_base64Encode (B : List Byte) : base64Decode (base64Encode B) = some B := by
  fun_induction base64Encode B with
  | case1 b0 b1 b2 rest n ih =>
    have hgroup : base64Group (base64Char (n / 262144)) (base64Char (n / 4096 % 64)) (base64Char (n / 64 % 64))
        (base64Char (n % 64)) = some [b0, b1, b2] := by
      simp only [base64Group, base64Value_base64Char (show n / 262144 < 64 by bv_omega), base64Value_base64Char_mod,
        Option.some.injEq, List.cons.injEq, and_true]
      bv_omega
    have hpad : base64Char (n % 64) ≠ '=' := base64Char_ne_pad (by omega)
    simp [base64Decode_group hpad, hgroup, ih]
  | case2 b0 b1 n =>
    have hpad : base64Char (n / 64 % 64) ≠ '=' := base64Char_ne_pad (by omega)
    simp only [base64Decode, List.isEmpty_nil, if_true, if_neg hpad, base64Tail2,
      base64Value_base64Char (show n / 262144 < 64 by bv_omega), base64Value_base64Char_mod]
    rw [if_pos (by omega)]
    simp only [Option.some.injEq, List.cons.injEq, and_true]
    bv_omega
  | case3 b0 n =>
    simp only [base64Decode, List.isEmpty_nil, if_true, base64Tail1,
      base64Value_base64Char (show n / 262144 < 64 by bv_omega), base64Value_base64Char_mod]
    rw [if_pos (by omega)]
    simp only [Option.some.injEq, List.cons.injEq, and_true]
    bv_omega
  | case4 => rfl

theorem base64Encode_of_base64Group {c0 c1 c2 c3 : Char} {bs : List Byte}
    (h : base64Group c0 c1 c2 c3 = some bs) (more : List Byte) :
    base64Encode (bs ++ more) = c0 :: c1 :: c2 :: c3 :: base64Encode more := by
  unfold base64Group at h
  split at h
  next v0 v1 v2 v3 h0 h1 h2 h3 =>
    obtain ⟨hv0, rfl⟩ := base64Value_eq_some_iff.mp h0
    obtain ⟨hv1, rfl⟩ := base64Value_eq_some_iff.mp h1
    obtain ⟨hv2, rfl⟩ := base64Value_eq_some_iff.mp h2
    obtain ⟨hv3, rfl⟩ := base64Value_eq_some_iff.mp h3
    cases h
    simp only [List.cons_append, List.nil_append, base64Encode, BitVec.toNat_ofNat, List.cons.injEq, and_true]
    and_intros <;> congr 1 <;> omega
  next => cases h

theorem base64Encode_of_base64Tail2 {c0 c1 c2 : Char} {bs : List Byte} (h : base64Tail2 c0 c1 c2 = some bs) :
    base64Encode bs = [c0, c1, c2, '='] := by
  unfold base64Tail2 at h
  split at h
  next v0 v1 v2 h0 h1 h2 =>
    obtain ⟨hv0, rfl⟩ := base64Value_eq_some_iff.mp h0
    obtain ⟨hv1, rfl⟩ := base64Value_eq_some_iff.mp h1
    obtain ⟨hv2, rfl⟩ := base64Value_eq_some_iff.mp h2
    split_ifs at h with hbits
    cases h
    simp only [base64Encode, BitVec.toNat_ofNat, List.cons.injEq, and_true]
    and_intros <;> congr 1 <;> omega
  next => cases h

theorem base64Encode_of_base64Tail1 {c0 c1 : Char} {bs : List Byte} (h : base64Tail1 c0 c1 = some bs) :
    base64Encode bs = [c0, c1, '=', '='] := by
  unfold base64Tail1 at h
  split at h
  next v0 v1 h0 h1 =>
    obtain ⟨hv0, rfl⟩ := base64Value_eq_some_iff.mp h0
    obtain ⟨hv1, rfl⟩ := base64Value_eq_some_iff.mp h1
    split_ifs at h with hbits
    cases h
    simp only [base64Encode, BitVec.toNat_ofNat, List.cons.injEq, and_true]
    and_intros <;> congr 1 <;> omega
  next => cases h

/-- Only the encoder's own text decodes: the decoder is strict (R194). -/
theorem base64Encode_of_base64Decode {T : Text} {B : List Byte} (h : base64Decode T = some B) :
    base64Encode B = T := by
  fun_induction base64Decode T generalizing B with
  | case1 =>
    cases h
    rfl
  | case2 c0 c1 rest hrest =>
    rw [base64Encode_of_base64Tail1 h, List.isEmpty_iff.mp hrest]
  | case3 c0 c1 c2 rest hrest hc2 =>
    rw [base64Encode_of_base64Tail2 h, List.isEmpty_iff.mp hrest]
  | case5 c0 c1 c2 c3 rest hc3 bs more hmore hgroup ih =>
    cases h
    rw [base64Encode_of_base64Group hgroup, ih hmore]
  | case4 | case6 | case7 => cases h

theorem base64Decode_eq_some_iff {T : Text} {B : List Byte} : base64Decode T = some B ↔ base64Encode B = T :=
  ⟨base64Encode_of_base64Decode, fun h => h ▸ base64Decode_base64Encode B⟩

/-! ## R194's malformed texts -/

/-- R194's third case: `=` before the last two positions, or last but one with no `=` after it. -/
def Base64MisplacedPad (T : Text) : Prop :=
  ∃ i, T[i]? = some '=' ∧ (i + 2 < T.length ∨ (i + 2 = T.length ∧ T[i + 1]? ≠ some '='))

/-- R194's last case: unused low bits that are not 0, in a text that ends in `==` or in one `=`. -/
def Base64LooseBits (T : Text) : Prop :=
  (∃ v, 4 ≤ T.length ∧ T[T.length - 1]? = some '=' ∧ T[T.length - 2]? = some '=' ∧
    T[T.length - 3]?.bind base64Value = some v ∧ v % 16 ≠ 0) ∨
  (∃ v, 4 ≤ T.length ∧ T[T.length - 1]? = some '=' ∧
    T[T.length - 2]?.bind base64Value = some v ∧ v % 4 ≠ 0)

/-- The cases of R194 in which decoding fails. -/
def Base64Malformed (T : Text) : Prop :=
  (∃ ch ∈ T, ch ≠ '=' ∧ base64Value ch = none) ∨ T.length % 4 ≠ 0 ∨ Base64MisplacedPad T ∨ Base64LooseBits T

theorem base64MisplacedPad_cons (c : Char) (T : Text) :
    Base64MisplacedPad (c :: T) ↔ (c = '=' ∧ T ≠ [] ∧ T ≠ ['=']) ∨ Base64MisplacedPad T := by
  unfold Base64MisplacedPad
  rw [← Nat.or_exists_add_one]
  refine or_congr ?_ (exists_congr fun i => ?_)
  · rcases T with _ | ⟨d, _ | ⟨e, T⟩⟩ <;> simp
  · simp only [List.getElem?_cons_succ, List.length_cons, Nat.add_right_comm i 1 2, Nat.add_lt_add_iff_right,
      Nat.add_right_cancel_iff]

theorem not_base64MisplacedPad_nil : ¬ Base64MisplacedPad [] := by
  simp [Base64MisplacedPad]

theorem not_base64LooseBits_nil : ¬ Base64LooseBits [] := by
  simp [Base64LooseBits]

theorem base64LooseBits_cons (c : Char) {T : Text} (h : 4 ≤ T.length) :
    Base64LooseBits (c :: T) ↔ Base64LooseBits T := by
  obtain ⟨n, hn⟩ := Nat.exists_eq_add_of_le' h
  simp [Base64LooseBits, hn]

theorem base64LooseBits_quad (c0 c1 c2 c3 : Char) : Base64LooseBits [c0, c1, c2, c3] ↔ c3 = '=' ∧
    ((c2 = '=' ∧ ∃ v, base64Value c1 = some v ∧ v % 16 ≠ 0) ∨ ∃ v, base64Value c2 = some v ∧ v % 4 ≠ 0) := by
  simp [Base64LooseBits, and_or_left]

theorem not_base64Malformed_nil : ¬ Base64Malformed [] := by
  simp [Base64Malformed, not_base64MisplacedPad_nil, not_base64LooseBits_nil]

theorem base64LooseBits_group {c0 c1 c2 c3 : Char} {rest : Text} (h : c3 ≠ '=') (hlen : rest.length % 4 = 0) :
    Base64LooseBits (c0 :: c1 :: c2 :: c3 :: rest) ↔ Base64LooseBits rest := by
  by_cases hrest : rest = []
  · simp [hrest, base64LooseBits_quad, h, not_base64LooseBits_nil]
  · have hpos : 0 < rest.length := List.length_pos_iff.mpr hrest
    have hfour : 4 ≤ rest.length := by omega
    simp (disch := grind) only [base64LooseBits_cons]

/-! ## Where decoding fails -/

theorem base64Group_eq_none_iff (c0 c1 c2 c3 : Char) : base64Group c0 c1 c2 c3 = none ↔
    base64Value c0 = none ∨ base64Value c1 = none ∨ base64Value c2 = none ∨ base64Value c3 = none := by
  unfold base64Group
  rcases base64Value c0 with _ | v0
  · simp
  rcases base64Value c1 with _ | v1
  · simp
  rcases base64Value c2 with _ | v2
  · simp
  rcases base64Value c3 with _ | v3 <;> simp

theorem base64Tail1_eq_none_iff (c0 c1 : Char) : base64Tail1 c0 c1 = none ↔
    base64Value c0 = none ∨ base64Value c1 = none ∨ ∃ v, base64Value c1 = some v ∧ v % 16 ≠ 0 := by
  unfold base64Tail1
  rcases base64Value c0 with _ | v0
  · simp
  rcases base64Value c1 with _ | v1 <;> simp

theorem base64Tail2_eq_none_iff (c0 c1 c2 : Char) : base64Tail2 c0 c1 c2 = none ↔
    base64Value c0 = none ∨ base64Value c1 = none ∨ base64Value c2 = none ∨
      ∃ v, base64Value c2 = some v ∧ v % 4 ≠ 0 := by
  unfold base64Tail2
  rcases base64Value c0 with _ | v0
  · simp
  rcases base64Value c1 with _ | v1
  · simp
  rcases base64Value c2 with _ | v2 <;> simp

/-- A character without a value is `=` or foreign: R194 treats the two apart. -/
theorem base64Value_eq_none_iff (c : Char) :
    base64Value c = none ↔ c = '=' ∨ (c ≠ '=' ∧ base64Value c = none) := by
  by_cases hc : c = '=' <;> simp [hc]

/-- Whether a text is malformed can be said of its first full group and of the rest apart. -/
theorem base64Malformed_group {c0 c1 c2 c3 : Char} (h : c3 ≠ '=') (rest : Text) :
    Base64Malformed (c0 :: c1 :: c2 :: c3 :: rest) ↔ base64Group c0 c1 c2 c3 = none ∨ Base64Malformed rest := by
  have hlength : (c0 :: c1 :: c2 :: c3 :: rest).length % 4 = rest.length % 4 := Nat.add_mod_right rest.length 4
  by_cases hlen : rest.length % 4 = 0
  · have hmisplaced : Base64MisplacedPad (c0 :: c1 :: c2 :: c3 :: rest) ↔
        c0 = '=' ∨ c1 = '=' ∨ c2 = '=' ∨ Base64MisplacedPad rest := by
      simp [base64MisplacedPad_cons, h]
    rw [base64Group_eq_none_iff, base64Value_eq_none_iff c0, base64Value_eq_none_iff c1, base64Value_eq_none_iff c2,
      base64Value_eq_none_iff c3]
    simp only [Base64Malformed, List.mem_cons, exists_eq_or_imp, hlength, hmisplaced, base64LooseBits_group h hlen,
      h, false_or]
    exact Iff.of_eq (by ac_rfl)
  · simp only [Base64Malformed, hlength, ne_eq, hlen, not_false_eq_true, true_or, or_true]

theorem base64Malformed_padded (c0 c1 c2 : Char) :
    Base64Malformed [c0, c1, c2, '='] ↔ base64Value c0 = none ∨ base64Value c1 = none ∨
      (c2 ≠ '=' ∧ base64Value c2 = none) ∨ (c2 = '=' ∧ ∃ v, base64Value c1 = some v ∧ v % 16 ≠ 0) ∨
      ∃ v, base64Value c2 = some v ∧ v % 4 ≠ 0 := by
  have hforeign : (∃ ch ∈ [c0, c1, c2, '='], ch ≠ '=' ∧ base64Value ch = none) ↔
      (c0 ≠ '=' ∧ base64Value c0 = none) ∨ (c1 ≠ '=' ∧ base64Value c1 = none) ∨ (c2 ≠ '=' ∧ base64Value c2 = none) := by
    simp
  have hlength : [c0, c1, c2, '='].length % 4 = 0 := by simp
  have hmisplaced : Base64MisplacedPad [c0, c1, c2, '='] ↔ c0 = '=' ∨ c1 = '=' := by
    simp [base64MisplacedPad_cons, not_base64MisplacedPad_nil]
  rw [base64Value_eq_none_iff c0, base64Value_eq_none_iff c1, Base64Malformed, hforeign, hlength, hmisplaced,
    base64LooseBits_quad]
  simp only [ne_eq, not_true_eq_false, true_and, false_or]
  exact Iff.of_eq (by ac_rfl)

theorem base64Malformed_onePad {c0 c1 c2 : Char} (h : c2 ≠ '=') :
    Base64Malformed [c0, c1, c2, '='] ↔ base64Tail2 c0 c1 c2 = none := by
  simp [base64Malformed_padded, base64Tail2_eq_none_iff, h]

theorem base64Malformed_twoPads (c0 c1 : Char) :
    Base64Malformed [c0, c1, '=', '='] ↔ base64Tail1 c0 c1 = none := by
  simp [base64Malformed_padded, base64Tail1_eq_none_iff]

/-- A `=` that closes a group before the last is misplaced, or the length is wrong. -/
theorem base64Malformed_innerPad (c0 c1 c2 : Char) {rest : Text} (h : rest ≠ []) :
    Base64Malformed (c0 :: c1 :: c2 :: '=' :: rest) := by
  by_cases hone : rest = ['=']
  · simp [Base64Malformed, hone]
  · simp [Base64Malformed, base64MisplacedPad_cons, h, hone]

/-- Decoding fails exactly on R194's malformed texts, group by group. -/
theorem base64Decode_eq_none_iff (T : Text) : base64Decode T = none ↔ Base64Malformed T := by
  fun_induction base64Decode T with
  | case1 => simp [not_base64Malformed_nil]
  | case2 c0 c1 rest hrest => rw [List.isEmpty_iff.mp hrest, base64Malformed_twoPads]
  | case3 c0 c1 c2 rest hrest hc2 => rw [List.isEmpty_iff.mp hrest, base64Malformed_onePad hc2]
  | case4 c0 c1 c2 rest hrest =>
    simp [base64Malformed_innerPad c0 c1 c2 (mt List.isEmpty_iff.mpr hrest)]
  | case5 c0 c1 c2 c3 rest hc3 bs more hmore hgroup ih => simp [base64Malformed_group hc3, hgroup, ← ih, hmore]
  | case6 c0 c1 c2 c3 rest hc3 hnone ih =>
    rw [base64Malformed_group hc3, ← ih]
    rcases hgroup : base64Group c0 c1 c2 c3 with _ | bs
    · simp
    rcases hmore : base64Decode rest with _ | more
    · simp
    · exact (hnone bs more hgroup hmore).elim
  | case7 T hnil hcons =>
    have hlen : T.length % 4 ≠ 0 := match T, hnil, hcons with
      | [], hnil, _ => (hnil rfl).elim
      | [_], _, _ | [_, _], _, _ | [_, _, _], _, _ => by simp
      | _ :: _ :: _ :: _ :: _, _, hcons => (hcons _ _ _ _ _ rfl).elim
    simp [Base64Malformed, hlen]

/-- Settles O54: decoding fails on the malformed texts alone, and otherwise inverts encoding. -/
theorem base64DecodeFailsExactly : Obligations.Base64DecodeFailsExactly :=
  ⟨base64Decode_eq_none_iff, fun _ _ => base64Decode_eq_some_iff, by decide, by decide⟩

end Sys2Proof.Machine
end

section
/-! PROOFS. Status codes (60_exceptions.md): the code each command reports (R213), who produces each code (R210) and how
long ERR keeps it (R211). -/

namespace Sys2Proof.Machine

/-! ## The code each command reports -/

/-- An outcome is one state at most, so a known one gives the ERR left. -/
theorem err_eq_of_next {o : Outcome State} {t u : State} (h : o = .next t) (hu : o = .next u) : t.err = u.err :=
  congrArg State.err (Host.Outcome.next.inj (h.symm.trans hu))

theorem exec_setSeed_err {len : Nat} {s t : State} (h : exec (.setSeed len) s = .next t) :
    t.err = if len > 1024 then 3 else if len < 16 then 1 else 0 := by
  split_ifs with hmax hmin
  · exact err_eq_of_next h (execSetSeed_of_gt hmax s)
  · exact err_eq_of_next h (execSetSeed_of_lt hmin s)
  · exact err_eq_of_next h (execSetSeed_of_legal (by omega) (by omega) s)

theorem exec_nextPad_err {len : Nat} {s t : State} (h : exec (.nextPad len) s = .next t) :
    t.err = if s.hasSecret = false then 2 else if len = 0 ∨ len > 1024 then 3 else 0 := by
  split_ifs with hs hlen
  · exact err_eq_of_next h (execNextPad_of_unentangled hs len)
  · exact err_eq_of_next h (execNextPad_of_illegal (Bool.of_not_eq_false hs) (by omega))
  · exact err_eq_of_next h (execNextPad_of_legal (Bool.of_not_eq_false hs) (by omega) (by omega))

theorem exec_encrypt_err {len : Nat} {s t : State} (h : exec (.encrypt len) s = .next t) :
    t.err = if len > s.padLen.toNat then 4 else 0 := by
  split_ifs with hlen
  · exact err_eq_of_next h (execEncrypt_of_gt hlen)
  · exact err_eq_of_next h (execEncrypt_of_le (by omega))

theorem exec_decrypt_err {len : Nat} {s t : State} (h : exec (.decrypt len) s = .next t) :
    t.err = if len > s.padLen.toNat then 4 else if utf8WellFormed (cipherBytes len s) = false then 5 else 0 := by
  split_ifs with hlen hM
  · exact err_eq_of_next h (execDecrypt_of_gt hlen)
  · exact err_eq_of_next h (execDecrypt_of_illFormed (by omega) hM)
  · exact err_eq_of_next h (execDecrypt_of_wellFormed (by omega) (Bool.of_not_eq_false hM))

theorem exec_resetState_err {s t : State} (h : exec .resetState s = .next t) : t.err = 0 :=
  err_eq_of_next h rfl

/-- Settles O43: one lemma per command, and a refused word runs no command at all. -/
theorem errorCheckOrder : Obligations.ErrorCheckOrder :=
  ⟨fun _ _ _ => exec_setSeed_err, fun _ _ _ => exec_nextPad_err, fun _ _ _ => exec_encrypt_err,
    fun _ _ _ => exec_decrypt_err, fun _ _ => exec_resetState_err,
    fun _ c s hw => busWrite_illegal rfl ⟨c, hw⟩ s⟩

/-! ## Who produces each code -/

/-- Every code a command can leave, with the commands that leave it (R210). -/
theorem exec_err_cases {i : Instr} {s t : State} (h : exec i s = .next t) :
    t.err = 0 ∨
    (t.err = 1 ∧ ∃ len, i = .setSeed len) ∨
    (t.err = 2 ∧ ∃ len, i = .nextPad len) ∨
    (t.err = 3 ∧ ∃ len, i = .nextPad len ∨ (i = .setSeed len ∧ 1024 < len)) ∨
    (t.err = 4 ∧ ∃ len, i = .encrypt len ∨ i = .decrypt len) ∨
    (t.err = 5 ∧ ∃ len, i = .decrypt len) := by
  cases i with
  | setSeed len =>
    have herr := exec_setSeed_err h
    split_ifs at herr with hmax hmin
    · exact .inr (.inr (.inr (.inl ⟨herr, len, .inr ⟨rfl, hmax⟩⟩)))
    · exact .inr (.inl ⟨herr, len, rfl⟩)
    · exact .inl herr
  | nextPad len =>
    have herr := exec_nextPad_err h
    split_ifs at herr
    · exact .inr (.inr (.inl ⟨herr, len, rfl⟩))
    · exact .inr (.inr (.inr (.inl ⟨herr, len, .inl rfl⟩)))
    · exact .inl herr
  | encrypt len =>
    have herr := exec_encrypt_err h
    split_ifs at herr
    · exact .inr (.inr (.inr (.inr (.inl ⟨herr, len, .inl rfl⟩))))
    · exact .inl herr
  | decrypt len =>
    have herr := exec_decrypt_err h
    split_ifs at herr
    · exact .inr (.inr (.inr (.inr (.inl ⟨herr, len, .inr rfl⟩))))
    · exact .inr (.inr (.inr (.inr (.inr ⟨herr, len, rfl⟩))))
    · exact .inl herr
  | resetState => exact .inl (exec_resetState_err h)

/-- Settles O40: a command leaves one of six codes, each with its producers; a refused word and a reset leave theirs. -/
theorem statusCodesByProducer : Obligations.StatusCodesByProducer := by
  refine ⟨fun i s t h => ?command, fun w c s t hw h => ?illegal, fun s t h => ?reset⟩
  case command =>
    obtain herr | ⟨herr, hi⟩ | ⟨herr, hi⟩ | ⟨herr, hi⟩ | ⟨herr, hi⟩ | ⟨herr, hi⟩ := exec_err_cases h
    · simp [herr]
    all_goals simpa [herr] using hi
  case illegal => exact err_eq_of_next h (busWrite_illegal rfl ⟨c, hw⟩ s)
  case reset => exact err_eq_of_next h (deliver_reset s)

/-! ## The lifetime of ERR -/

/-- `finish` overwrites ERR (R12). -/
theorem finish_with_err (c : StatusCode) (e : BitVec 4) (s : State) :
    finish c { s with err := e } = finish c s := rfl

/-- No check and no operand of a command reads ERR, and its end overwrites ERR (R211). -/
theorem exec_with_err (i : Instr) (e : BitVec 4) (s : State) : exec i { s with err := e } = exec i s := by
  cases i <;> rfl

theorem runCommand_with_err (w : Word) (e : BitVec 4) (s : State) :
    runCommand w { s with err := e } = runCommand w s := by
  cases hd : decode w with
  | ok i => rw [runCommand_of_decode_ok hd, runCommand_of_decode_ok hd, exec_with_err]
  | error c =>
    rw [runCommand_of_decode_error hd, runCommand_of_decode_error hd]
    exact congrArg Host.Outcome.next (finish_with_err .illegalCommand e s)

/-- An event that is neither a hardware reset nor a CMD write keeps ERR (R211). -/
theorem deliver_keeps_err {e : HostEvent} {s t : State} (hreset : e ≠ .reset) (hcmd : e.command? = none)
    (h : deliver e s = .next t) : t.err = s.err := by
  cases e with
  | read m off => rw [err_eq_of_next h (deliver_read m off s), answer_err]
  | reset => exact absurd rfl hreset
  | write m off v =>
    have hoff : wordOffset off ≠ 0 := fun hoff => by simp [HostEvent.command?, hoff] at hcmd
    rw [deliver_write] at h
    rcases busWrite_cases hoff v s with ⟨_, hwrite⟩ | ⟨b, w, _, _, _, hwrite⟩ | hwrite
    · rw [err_eq_of_next h hwrite, writePadLen_err]
    · rw [err_eq_of_next h hwrite, bufWriteWord_err]
    · exact err_eq_of_next h hwrite

/-- Settles O41: a CMD write overwrites ERR without reading it; any other step is idle or delivers an event that keeps
it. -/
theorem errLifetime : Obligations.ErrLifetime := by
  refine ⟨fun w e s => ?overwritten, fun s t h hevent => ?kept⟩
  case overwritten => rw [busWrite_cmd rfl, busWrite_cmd rfl, runCommand_with_err]
  case kept =>
    rcases step_cases h with ⟨_, rfl⟩ | ⟨e, rest, hp, hd⟩
    · rfl
    · obtain ⟨hreset, hcmd⟩ := hevent e rest hp
      have hkept := deliver_keeps_err hreset hcmd hd
      exact hkept

end Sys2Proof.Machine
end

section
/-! PROOFS. Encoder and decoder are inverse to each other (30_encoding.md R94, R98), and a step runs what the decoder
gives. -/

namespace Sys2Proof

/-- The fields of the encoder's word are what the decoder asks for (R91, R98). -/
theorem commandWord_fields {len op : Nat} (hl : decide (len < Config.lenLimit) = true) (ho : op < 16) :
    rsvField (commandWord len op) = 0 ∧ opField (commandWord len op) = BitVec.ofNat 4 op ∧
      lenField (commandWord len op) = len :=
  have hlen : len < 65536 := of_decide_eq_true hl
  ⟨rsvField_commandWord hlen ho, opField_commandWord hlen ho, lenField_commandWord hlen ho⟩

/-- Settles O1: the decoder finds each command's row from the fields of the encoder's word. -/
theorem decodeEncodeRoundTrip : Obligations.DecodeEncodeRoundTrip := by
  intro i hi
  cases i with
  | setSeed len => exact (decode_setSeed_iff _ len).mpr (commandWord_fields hi (by decide))
  | nextPad len => exact (decode_nextPad_iff _ len).mpr (commandWord_fields hi (by decide))
  | encrypt len => exact (decode_encrypt_iff _ len).mpr (commandWord_fields hi (by decide))
  | decrypt len => exact (decode_decrypt_iff _ len).mpr (commandWord_fields hi (by decide))
  | resetState => decide

/-- A word with RSV 0 is the encoder's word of its own LEN and OP (R91, R98). -/
theorem commandWord_of_fields {w : Word} {op : BitVec 4} (hrsv : rsvField w = 0) (hop : opField w = op) :
    commandWord (lenField w) op.toNat = w := by
  have hop_lt : op.toNat < 16 := op.isLt
  rw [← BitVec.toNat_inj, commandWord_toNat (lenField_lt w) hop_lt, toNat_of_rsv_zero hrsv, hop]

/-- Settles O2: the row of a decoded word fixes its OP and RSV, so the word is its LEN and OP again. -/
theorem encodeDecodeRoundTrip : Obligations.EncodeDecodeRoundTrip := by
  intro w i h
  have hlen : decide (lenField w < Config.lenLimit) = true := decide_eq_true (lenField_lt w)
  cases i with
  | setSeed len =>
    obtain ⟨hrsv, hop, rfl⟩ := (decode_setSeed_iff w len).mp h
    exact ⟨commandWord_of_fields hrsv hop, hlen⟩
  | nextPad len =>
    obtain ⟨hrsv, hop, rfl⟩ := (decode_nextPad_iff w len).mp h
    exact ⟨commandWord_of_fields hrsv hop, hlen⟩
  | encrypt len =>
    obtain ⟨hrsv, hop, rfl⟩ := (decode_encrypt_iff w len).mp h
    exact ⟨commandWord_of_fields hrsv hop, hlen⟩
  | decrypt len =>
    obtain ⟨hrsv, hop, rfl⟩ := (decode_decrypt_iff w len).mp h
    exact ⟨commandWord_of_fields hrsv hop, hlen⟩
  | resetState =>
    obtain ⟨hrsv, hop, hzero⟩ := (decode_resetState_iff w).mp h
    have hword := commandWord_of_fields hrsv hop
    rw [hzero] at hword
    exact ⟨hword, rfl⟩

/-- Settles O4: the decoder evaluates on the ten words. -/
theorem decodeSampleWords : Obligations.DecodeSampleWords := by
  unfold Obligations.DecodeSampleWords
  decide

end Sys2Proof

namespace Sys2Proof.Machine

/-- Settles O7: a step delivers the first pending event, and a CMD write runs the decoded command. -/
theorem stepRunsDecodedCommand : Obligations.StepRunsDecodedCommand := by
  refine fun s w i hw => ⟨fun master off rest hpending hoff => ?_, ?_⟩
  · rw [step_event hpending, deliver_write, busWrite_cmd hoff, runCommand_of_decode_ok hw]
  · rw [step_withFetchWord, Nat.mod_eq_of_lt w.isLt, BitVec.ofNat_toNat, BitVec.setWidth_eq,
      runCommand_of_decode_ok hw]

end Sys2Proof.Machine
end

section
/-! PROOFS. What every step keeps: the invariant (R23, R24, R210), the canonical memory and the build parameters; and
what hardware reset leaves (R50, R240, R242). -/

namespace Sys2Proof.Machine

/-! ## The invariant -/

/-- Every code `finish` can leave is one of R210's. -/
theorem State.errLegal_of_code {s : State} {c : StatusCode} (h : s.err = c.code) : s.ErrLegal := by
  rw [State.ErrLegal, h]
  cases c <;> decide

/-- While entangled, R23 asks nothing. -/
theorem State.secretPaired_of_entangled {s : State} (h : s.hasSecret = true) : s.SecretPaired :=
  fun hfalse => absurd (h.symm.trans hfalse) (by decide)

theorem exec_keeps_secretPaired {i : Instr} {s t : State} (hs : s.SecretPaired) (h : exec i s = .next t) :
    t.SecretPaired := by
  rcases exec_cases h with ⟨len, _, hseed⟩ | ⟨len, _, hpad⟩ | ⟨len, _, hcipher⟩ | ⟨_, rfl⟩
  · rcases hseed with ⟨_, rfl⟩ | ⟨_, rfl⟩ | ⟨_, _, rfl⟩
    · exact hs
    · exact hs
    · exact State.secretPaired_of_entangled rfl
  · rcases hpad with ⟨_, rfl⟩ | ⟨_, _, rfl⟩ | ⟨hentangled, _, _, rfl⟩
    · exact hs
    · exact hs
    · exact State.secretPaired_of_entangled hentangled
  · rcases hcipher with ⟨_, rfl⟩ | ⟨_, _, _, rfl⟩ | ⟨_, _, rfl⟩ <;> exact hs
  · exact fun _ => ⟨rfl, rfl⟩

theorem exec_keeps_lengthsLegal {i : Instr} {s t : State} (hs : s.LengthsLegal) (h : exec i s = .next t) :
    t.LengthsLegal := by
  obtain ⟨hpadLen, houtLen⟩ := hs
  rcases exec_cases h with ⟨len, _, hseed⟩ | ⟨len, _, hpad⟩ | ⟨len, _, hcipher⟩ | ⟨_, rfl⟩
  · rcases hseed with ⟨_, rfl⟩ | ⟨_, rfl⟩ | ⟨_, _, rfl⟩ <;> exact ⟨hpadLen, houtLen⟩
  · rcases hpad with ⟨_, rfl⟩ | ⟨_, _, rfl⟩ | ⟨_, _, hmax, rfl⟩
    · exact ⟨hpadLen, houtLen⟩
    · exact ⟨hpadLen, houtLen⟩
    · have hlen := derive_length s.build.k s.secret s.counter len
      refine ⟨?_, houtLen⟩
      rw [finish_padLen, advanceCounter_padLen, issuePad_padLen_toNat (by omega), hlen]
      exact hmax
  · rcases hcipher with ⟨_, rfl⟩ | ⟨_, _, _, rfl⟩ | ⟨hle, _, rfl⟩
    · exact ⟨hpadLen, Nat.zero_le _⟩
    · exact ⟨hpadLen, Nat.zero_le _⟩
    · exact ⟨hpadLen, by rw [cipherDone_outLen_toNat hle]; omega⟩
  · exact ⟨hpadLen, houtLen⟩

theorem exec_keeps_inv {i : Instr} {s t : State} (hs : s.Inv) (h : exec i s = .next t) : t.Inv := by
  obtain ⟨hpaired, hlengths, _⟩ := hs
  obtain ⟨_, _, _, _, c, herr⟩ := exec_outer h
  exact ⟨exec_keeps_secretPaired hpaired h, exec_keeps_lengthsLegal hlengths h, State.errLegal_of_code herr⟩

/-- A write of PAD_LEN leaves no length over PAD_MAX (R33). -/
theorem writePadLen_keeps_lengthsLegal {s : State} (hs : s.LengthsLegal) (v : Word) :
    (writePadLen v s).LengthsLegal := by
  obtain ⟨hpadLen, houtLen⟩ := hs
  refine ⟨?_, by rwa [writePadLen_outLen]⟩
  by_cases hv : v.toNat ≤ 1024
  · rwa [writePadLen_padLen_of_le hv]
  · rwa [writePadLen_of_gt (by omega)]

/-- Hardware reset leaves an unentangled PADGEN with no lengths and no error (R50). -/
theorem hardwareReset_inv (s : State) : (hardwareReset s).Inv :=
  ⟨fun _ => ⟨rfl, rfl⟩, ⟨Nat.zero_le _, Nat.zero_le _⟩, .inl rfl⟩

theorem deliver_keeps_inv {e : HostEvent} {s t : State} (hs : s.Inv) (h : deliver e s = .next t) : t.Inv := by
  rcases deliver_cases h with ⟨_, _, _, rfl⟩ | ⟨_, _, _, _, _, _, _, hexec⟩ | ⟨_, _, _, _, _, _, _, rfl⟩ |
    ⟨_, _, v, _, _, rfl⟩ | ⟨_, _, _, _, _, _, _, _, _, rfl⟩ | ⟨_, _, _, _, _, rfl⟩ | ⟨_, rfl⟩
  case inr.inl => exact exec_keeps_inv hs hexec
  case inr.inr.inr.inr.inr.inr => exact hardwareReset_inv s
  all_goals obtain ⟨hpaired, hlengths, herr⟩ := hs
  case inr.inr.inl => exact ⟨hpaired, hlengths, State.errLegal_of_code (c := .illegalCommand) rfl⟩
  case inr.inr.inr.inl =>
    refine ⟨?_, writePadLen_keeps_lengthsLegal hlengths v, ?_⟩
    · simpa [State.SecretPaired] using hpaired
    · simpa [State.ErrLegal] using herr
  all_goals exact ⟨hpaired, hlengths, herr⟩

/-- Settles O47: a step is idle or delivers an event, and the invariant does not look at the pending events. -/
theorem stepKeepsInvariant : Obligations.StepKeepsInvariant := by
  refine ⟨hardwareReset_inv, fun s t hs h => ?_⟩
  rcases step_cases h with ⟨_, rfl⟩ | ⟨e, rest, _, hd⟩
  · exact hs
  · exact deliver_keeps_inv (s := { s with pending := rest }) hs hd

/-! ## The canonical memory -/

/-- A run of bytes inside the buffers keeps the memory canonical. -/
theorem State.memLegal_of_writeFrom {s t : State} {a : Nat} {vs : List Byte} (hs : s.MemLegal)
    (hmem : t.mem = s.mem.writeFrom a vs) (hlo : 0x400 ≤ a) (hhi : a + vs.length ≤ 0x1000) : t.MemLegal := by
  obtain ⟨hwf, hrange⟩ := hs
  rw [State.MemLegal, hmem]
  refine ⟨Memory.writeFrom_wf hwf a vs, fun c hc => ?_⟩
  rcases Memory.mem_writeFrom hc with ⟨hc_lo, hc_hi⟩ | hc
  · omega
  · exact hrange c hc

theorem exec_keeps_memLegal {i : Instr} {s t : State} (hlengths : s.LengthsLegal) (hs : s.MemLegal)
    (h : exec i s = .next t) : t.MemLegal := by
  obtain ⟨hpadLen, _⟩ := hlengths
  rcases exec_cases h with ⟨len, _, hseed⟩ | ⟨len, _, hpad⟩ | ⟨len, _, hcipher⟩ | ⟨_, rfl⟩
  · rcases hseed with ⟨_, rfl⟩ | ⟨_, rfl⟩ | ⟨_, _, rfl⟩ <;> exact hs
  · rcases hpad with ⟨_, rfl⟩ | ⟨_, _, rfl⟩ | ⟨_, _, hmax, rfl⟩
    · exact hs
    · exact hs
    · refine State.memLegal_of_writeFrom (a := 0x800) hs rfl (by decide) ?_
      rw [derive_length]
      omega
  · rcases hcipher with ⟨_, rfl⟩ | ⟨_, _, _, rfl⟩ | ⟨hle, _, rfl⟩
    · exact hs
    · exact hs
    · refine State.memLegal_of_writeFrom (a := 0xC00) hs rfl (by decide) ?_
      rw [cipherBytes_length]
      omega
  · exact hs

theorem deliver_keeps_memLegal {e : HostEvent} {s t : State} (hlengths : s.LengthsLegal) (hs : s.MemLegal)
    (h : deliver e s = .next t) : t.MemLegal := by
  rcases deliver_cases h with ⟨_, _, _, rfl⟩ | ⟨_, _, _, _, _, _, _, hexec⟩ | ⟨_, _, _, _, _, _, _, rfl⟩ |
    ⟨_, _, v, _, _, rfl⟩ | ⟨_, off, _, b, w, _, hb, hw, _, rfl⟩ | ⟨_, _, _, _, _, rfl⟩ | ⟨_, rfl⟩
  case inr.inl => exact exec_keeps_memLegal hlengths hs hexec
  case inr.inr.inr.inl => rwa [State.MemLegal, writePadLen_mem]
  case inr.inr.inr.inr.inl =>
    refine State.memLegal_of_writeFrom hs (bufWriteWord_mem b w _ s) ?_ ?_ <;>
      rcases hb with rfl | rfl <;> simp only [Buf.base, bytesOfWord_length] <;> omega
  case inr.inr.inr.inr.inr.inr => exact ⟨List.Pairwise.nil, by simp⟩
  all_goals exact hs

/-- Settles O48: every store of a command or a bus write lies in a buffer, by the lengths the invariant bounds. -/
theorem stepKeepsMemoryCanonical : Obligations.StepKeepsMemoryCanonical := by
  intro s t ⟨_, hlengths, _⟩ hs h
  rcases step_cases h with ⟨_, rfl⟩ | ⟨e, rest, _, hd⟩
  · exact hs
  · exact deliver_keeps_memLegal (s := { s with pending := rest }) hlengths hs hd

/-! ## The build parameters -/

/-- No event changes the build or the pending events, and only a hardware reset starts a new epoch. -/
theorem deliver_keeps_build {e : HostEvent} {s t : State} (h : deliver e s = .next t) :
    t.build = s.build ∧ t.pending = s.pending ∧ (e ≠ .reset → t.epoch = s.epoch) := by
  rcases deliver_cases h with ⟨_, _, _, rfl⟩ | ⟨_, _, _, _, _, _, _, hexec⟩ | ⟨_, _, _, _, _, _, _, rfl⟩ |
    ⟨_, _, _, _, _, rfl⟩ | ⟨_, _, _, _, _, _, _, _, _, rfl⟩ | ⟨_, _, _, _, _, rfl⟩ | ⟨he, rfl⟩
  case inr.inl =>
    obtain ⟨hbuild, hepoch, hpending, _⟩ := exec_outer hexec
    exact ⟨hbuild, hpending, fun _ => hepoch⟩
  case inr.inr.inr.inr.inr.inr => exact ⟨rfl, rfl, fun hne => absurd he hne⟩
  all_goals simp

theorem step_keeps_build {s t : State} (h : step s = .next t) : t.build = s.build := by
  rcases step_cases h with ⟨_, rfl⟩ | ⟨e, rest, _, hd⟩
  · rfl
  · exact (deliver_keeps_build hd).1

/-- While no hardware reset is pending, none comes to be and the epoch stays. -/
theorem step_keeps_epoch {s t : State} (hs : .reset ∉ s.pending) (h : step s = .next t) :
    .reset ∉ t.pending ∧ t.epoch = s.epoch := by
  rcases step_cases h with ⟨_, rfl⟩ | ⟨e, rest, hp, hd⟩
  · exact ⟨hs, rfl⟩
  · obtain ⟨hfirst, hrest⟩ : .reset ≠ e ∧ .reset ∉ rest := by simpa [hp] using hs
    obtain ⟨_, hpending, hepoch⟩ := deliver_keeps_build hd
    exact ⟨hpending ▸ hrest, hepoch (Ne.symm hfirst)⟩

/-- Settles O49: each parameter is kept by every step, so by every run. -/
theorem buildParametersNeverChange : Obligations.BuildParametersNeverChange := by
  refine fun n s t h => ⟨?build, fun hreset => ?epoch⟩
  case build =>
    exact run_invariant (P := fun u => u.build = s.build) (fun _ _ hu hstep => (step_keeps_build hstep).trans hu) rfl h
  case epoch =>
    refine (run_invariant (P := fun u => .reset ∉ u.pending ∧ u.epoch = s.epoch) ?_ ⟨hreset, rfl⟩ h).2
    intro u v ⟨hu, hepoch⟩ hstep
    obtain ⟨hv, hepoch'⟩ := step_keeps_epoch hu hstep
    exact ⟨hv, hepoch'.trans hepoch⟩

/-! ## Hardware reset -/

/-- STATUS shows HAS_SECRET, COUNTER and ERR, which hardware reset leaves as RESETSTATE does (R31, R242). -/
theorem statusWord_hardwareReset (s : State) : statusWord (hardwareReset s) = 0x00000000 :=
  statusWord_disentangle s

/-- HEALTH shows COUNTER alone, which hardware reset clears as RESETSTATE does (R35, R242). -/
theorem healthWord_hardwareReset (s : State) : healthWord (hardwareReset s) = 0x00000100 :=
  healthWord_disentangle s

/-- HEALTH_PCT after hardware reset is 100 percent (R36, R50). -/
theorem healthPctWord_hardwareReset (s : State) : healthPctWord (hardwareReset s) = 0x00006400 := by
  rw [← BitVec.toNat_inj, healthPctWord_toNat, hardwareReset_counter]
  decide

/-- Settles O44: the reset state is a literal but for the build, the epoch and the host's lists, which no register
shows. -/
theorem hardwareResetValues : Obligations.HardwareResetValues := by
  refine ⟨fun s t h => ?_, rfl, rfl, rfl, rfl, rfl, rfl, fun a => rfl⟩
  rw [deliver_reset] at h
  cases h
  exact ⟨rfl, rfl, rfl, rfl, rfl, rfl, hardwareReset_byteAt s, rfl, rfl, rfl,
    statusWord_hardwareReset s, rfl, rfl, healthWord_hardwareReset s,
    healthPctWord_hardwareReset s⟩

/-- Settles O45: both are one update of the state. -/
theorem resetComparedWithResetState : Obligations.ResetComparedWithResetState := by
  intro s t u hreset hresetState
  rw [deliver_reset] at hreset
  cases hreset
  cases hresetState
  exact ⟨⟨rfl, rfl, rfl⟩, ⟨rfl, rfl, rfl⟩, ⟨rfl, rfl, rfl, hardwareReset_byteAt s⟩, ⟨rfl, rfl, rfl, fun _ => rfl⟩⟩

/-- Settles O46: the reset state is unentangled, with no lengths, no error and an empty memory. -/
theorem resetMeetsInvariant : Obligations.ResetMeetsInvariant :=
  ⟨⟨fun _ => ⟨rfl, rfl⟩, ⟨Nat.zero_le _, Nat.zero_le _⟩, .inl rfl⟩, reset_mem_wf,
    fun _ hc => absurd hc List.not_mem_nil⟩

end Sys2Proof.Machine
end

section
/-! PROOFS. Runs: every event completes (R73, R220), a run serves the pending events in order (R70), and what masters
can and cannot tell of it (R23, R233). -/

namespace Sys2Proof.Machine

/-! ## Every command and every event completes -/

theorem exec_total (i : Instr) (s : State) : ∃ t, exec i s = .next t := by
  cases i with
  | setSeed len => rcases execSetSeed_cases len s with ⟨_, h⟩ | ⟨_, h⟩ | ⟨_, _, h⟩ <;> exact ⟨_, h⟩
  | nextPad len => rcases execNextPad_cases len s with ⟨_, h⟩ | ⟨_, _, h⟩ | ⟨_, _, _, h⟩ <;> exact ⟨_, h⟩
  | encrypt len => rcases execEncrypt_cases len s with ⟨_, h⟩ | ⟨_, h⟩ <;> exact ⟨_, h⟩
  | decrypt len => rcases execDecrypt_cases len s with ⟨_, h⟩ | ⟨_, _, h⟩ | ⟨_, _, h⟩ <;> exact ⟨_, h⟩
  | resetState => exact ⟨_, rfl⟩

theorem runCommand_total (w : Word) (s : State) : ∃ t, runCommand w s = .next t := by
  rcases runCommand_cases w s with ⟨i, _, h⟩ | ⟨_, _, h⟩
  · rw [h]
    exact exec_total i s
  · exact ⟨_, h⟩

theorem busWrite_total (off : Nat) (v : Word) (s : State) : ∃ t, busWrite off v s = .next t := by
  by_cases hoff : wordOffset off = 0
  · rw [busWrite_cmd hoff]
    exact runCommand_total v s
  · rcases busWrite_cases hoff v s with ⟨_, h⟩ | ⟨_, _, _, _, _, h⟩ | h <;> exact ⟨_, h⟩

theorem deliver_total (e : HostEvent) (s : State) : ∃ t, deliver e s = .next t := by
  cases e with
  | read m off => exact ⟨_, deliver_read m off s⟩
  | write m off v => exact busWrite_total off v s
  | reset => exact ⟨_, deliver_reset s⟩

theorem step_total (s : State) : ∃ t, step s = .next t := by
  cases hp : s.pending with
  | nil => exact ⟨s, step_idle hp⟩
  | cons e rest =>
    rw [step_event hp]
    exact deliver_total e _

theorem run_succ_of_step {n : Nat} {s t : State} (h : step s = .next t) :
    Host.Core.run Sys2Proof.core (n + 1) s = Host.Core.run Sys2Proof.core n t := by
  rw [run_succ, h]
  rfl

theorem run_total (n : Nat) (s : State) : SafeRun n s := by
  induction n generalizing s with
  | zero => exact ⟨s, run_zero s⟩
  | succ n ih =>
    obtain ⟨t, ht⟩ := step_total s
    obtain ⟨u, hu⟩ := ih t
    exact ⟨u, (run_succ_of_step ht).trans hu⟩

/-- Settles O9: no command and no event stops, so no run does. -/
theorem everyCommandAndRunCompletes : Obligations.EveryCommandAndRunCompletes := ⟨exec_total, run_total⟩

/-! ## What no event reads: the host's lists, and a cleared Secret -/

/-- The state with another SECRET and other host's lists. -/
def State.withHidden (s : State) (S : Secret) (pending : List HostEvent) (answers : List Answer) : State :=
  { s with secret := S, pending := pending, answers := answers }

/-- From `s` to `t` the Secret is overwritten or passed on, and then it was `S` where it is `S'`; only an unentangled
PADGEN passes a Secret on that differs from its own. -/
def SecretPassedOn (s t : State) (S S' : Secret) : Prop :=
  S' = t.secret ∨ (t.hasSecret = false ∧ t.secret = s.secret ∧ S' = S)

theorem secretPassedOn_of_kept {s : State} {S : Secret} (hS : S = s.secret ∨ s.hasSecret = false) :
    SecretPassedOn s s S S := hS.imp_right fun hs => ⟨hs, rfl, rfl⟩

/-- What an event adds to the answers: a read one, any other event none. -/
def HostEvent.answersIn (e : HostEvent) (s : State) : List Answer :=
  match e with
  | .read m off => [⟨m, busRead off s⟩]
  | .write _ _ _ => []
  | .reset => []

section
variable {s t : State} {S : Secret} (hS : S = s.secret ∨ s.hasSecret = false) (p : List HostEvent) (a : List Answer)

theorem busRead_withHidden (off : Nat) (s : State) (S : Secret) :
    busRead off (s.withHidden S p a) = busRead off s :=
  busRead_congr rfl rfl rfl rfl rfl (State.byteAt_congr rfl rfl) off

include hS

theorem exec_withHidden {i : Instr} (h : exec i s = .next t) :
    ∃ S', exec i (s.withHidden S p a) = .next (t.withHidden S' p a) ∧ SecretPassedOn s t S S' := by
  have hkept := secretPassedOn_of_kept hS
  cases i with
  | setSeed len =>
    rcases execSetSeed_cases len s with ⟨hmax, e⟩ | ⟨hmin, e⟩ | ⟨hmin, hmax, e⟩ <;> cases e.symm.trans h
    · exact ⟨S, execSetSeed_of_gt hmax _, hkept⟩
    · exact ⟨S, execSetSeed_of_lt hmin _, hkept⟩
    · exact ⟨_, execSetSeed_of_legal hmin hmax _, .inl rfl⟩
  | nextPad len =>
    rcases execNextPad_cases len s with ⟨hs, e⟩ | ⟨hs, hlen, e⟩ | ⟨hs, hmin, hmax, e⟩ <;> cases e.symm.trans h
    · exact ⟨S, execNextPad_of_unentangled (s := s.withHidden S p a) hs len, hkept⟩
    · exact ⟨S, execNextPad_of_illegal (s := s.withHidden S p a) hs hlen, hkept⟩
    · obtain rfl : S = s.secret := hS.resolve_right (by simp [hs])
      exact ⟨_, execNextPad_of_legal (s := s.withHidden _ p a) hs hmin hmax, .inl rfl⟩
  | encrypt len =>
    rcases execEncrypt_cases len s with ⟨hgt, e⟩ | ⟨hle, e⟩ <;> cases e.symm.trans h
    · exact ⟨S, execEncrypt_of_gt (s := s.withHidden S p a) hgt, hkept⟩
    · exact ⟨S, execEncrypt_of_le (s := s.withHidden S p a) hle, hkept⟩
  | decrypt len =>
    rcases execDecrypt_cases len s with ⟨hgt, e⟩ | ⟨hle, hill, e⟩ | ⟨hle, hwell, e⟩ <;> cases e.symm.trans h
    · exact ⟨S, execDecrypt_of_gt (s := s.withHidden S p a) hgt, hkept⟩
    · exact ⟨S, execDecrypt_of_illFormed (s := s.withHidden S p a) hle hill, hkept⟩
    · exact ⟨S, execDecrypt_of_wellFormed (s := s.withHidden S p a) hle hwell, hkept⟩
  | resetState =>
    cases h
    exact ⟨_, rfl, .inl rfl⟩

theorem runCommand_withHidden {w : Word} (h : runCommand w s = .next t) :
    ∃ S', runCommand w (s.withHidden S p a) = .next (t.withHidden S' p a) ∧ SecretPassedOn s t S S' := by
  cases hd : decode w with
  | ok i =>
    rw [runCommand_of_decode_ok hd] at h ⊢
    exact exec_withHidden hS p a h
  | error c =>
    rw [runCommand_of_decode_error hd] at h ⊢
    cases h
    exact ⟨S, rfl, secretPassedOn_of_kept hS⟩

theorem busWrite_withHidden {off : Nat} {v : Word} (h : busWrite off v s = .next t) :
    ∃ S', busWrite off v (s.withHidden S p a) = .next (t.withHidden S' p a) ∧ SecretPassedOn s t S S' := by
  have hkept := secretPassedOn_of_kept hS
  rw [busWrite] at h ⊢
  cases htarget : target off with
  | cmd =>
    rw [htarget] at h
    exact runCommand_withHidden hS p a h
  | padLen =>
    rw [htarget] at h
    cases h
    simp only [writePadLen_eq]
    exact ⟨S, rfl, hkept⟩
  | buffer b w =>
    rw [htarget] at h
    cases b <;> cases h <;> exact ⟨S, rfl, hkept⟩
  | status | outLen | health | healthPct | reserved =>
    rw [htarget] at h
    cases h
    exact ⟨S, rfl, hkept⟩

theorem deliver_withHidden {e : HostEvent} (h : deliver e s = .next t) :
    ∃ S', deliver e (s.withHidden S p a) = .next (t.withHidden S' p (a ++ e.answersIn s)) ∧
      SecretPassedOn s t S S' := by
  cases e with
  | read m off =>
    cases h
    refine ⟨S, ?_, secretPassedOn_of_kept hS⟩
    rw [deliver_read, busRead_withHidden]
    rfl
  | write m off v =>
    rw [HostEvent.answersIn, List.append_nil]
    exact busWrite_withHidden hS p a h
  | reset =>
    cases h
    rw [HostEvent.answersIn, List.append_nil]
    exact ⟨_, rfl, .inl rfl⟩

end

/-- The state with other host's lists: pending events and answers. -/
def State.withHost (s : State) (pending : List HostEvent) (answers : List Answer) : State :=
  { s with pending := pending, answers := answers }

theorem deliver_withHost {e : HostEvent} {s t : State} (h : deliver e s = .next t) (p : List HostEvent)
    (a : List Answer) : deliver e (s.withHost p a) = .next (t.withHost p (a ++ e.answersIn s)) := by
  obtain ⟨S', hd, hpassed⟩ := deliver_withHidden (.inl rfl) p a h
  obtain rfl : S' = t.secret := hpassed.elim id fun ⟨_, hkept, heq⟩ => heq.trans hkept.symm
  exact hd

/-- Only a read adds an answer. -/
theorem deliver_answers {e : HostEvent} {s t : State} (h : deliver e s = .next t) :
    t.answers = s.answers ++ e.answersIn s := by
  have hself := h.symm.trans (deliver_withHost h s.pending s.answers)
  exact congrArg State.answers (Host.Outcome.next.inj hself)

/-- An event does the same whatever is pending after it. -/
theorem deliver_with_pending {e : HostEvent} {s t : State} (h : deliver e s = .next t) (p : List HostEvent) :
    deliver e { s with pending := p } = .next { t with pending := p } := by
  have hhost := deliver_withHost h p s.answers
  rwa [← deliver_answers h] at hhost

theorem State.with_pending_self {s : State} {p : List HostEvent} (h : s.pending = p) : { s with pending := p } = s := by
  rw [← h]

/-- Settles O10: by induction on the events; each is taken off the list before it is delivered. -/
theorem runServesEventsInOrder : Obligations.RunServesEventsInOrder := by
  intro s es rest hp
  induction es generalizing s with
  | nil =>
    rw [State.with_pending_self (p := rest) hp]
    rfl
  | cons e es ih =>
    obtain ⟨t, ht⟩ := deliver_total e { s with pending := rest }
    have hstep : step s = .next { t with pending := es ++ rest } := by
      rw [step_event hp]
      exact deliver_with_pending ht (es ++ rest)
    obtain ⟨_, hpending, _⟩ := deliver_keeps_build ht
    rw [List.length_cons, run_succ_of_step hstep, ih _ rfl, deliverAll_cons, ht, andThen_next,
      State.with_pending_self hpending]

/-! ## Masters' numbers (R233) -/

theorem deliver_with_answers {e : HostEvent} {s t : State} (h : deliver e s = .next t) (a : List Answer) :
    deliver e { s with answers := a } = .next { t with answers := a ++ e.answersIn s } := by
  obtain ⟨_, hpending, _⟩ := deliver_keeps_build h
  have hself (b : List Answer) : t.withHost s.pending b = { t with answers := b } := by rw [State.withHost, ← hpending]
  rw [← hself]
  exact deliver_withHost h s.pending a

/-- The same event from another master does the same, and its answer holds the same data. -/
theorem deliver_of_anonymous_eq {e e' : HostEvent} (he : e.anonymous = e'.anonymous) {s t : State}
    (h : deliver e s = .next t) {a : List Answer} (ha : s.answers.map Answer.data = a.map Answer.data) :
    ∃ a', deliver e' { s with answers := a } = .next { t with answers := a' } ∧
      t.answers.map Answer.data = a'.map Answer.data := by
  cases e <;> cases e' <;> cases he
  case read.read m off m' =>
    cases h
    exact ⟨_, deliver_with_answers (deliver_read m' off s) a, by simp [HostEvent.answersIn, ha]⟩
  case write.write m off v m' =>
    refine ⟨_, deliver_with_answers (e := .write m' off v) h a, ?_⟩
    simpa [deliver_answers h, HostEvent.answersIn] using ha
  case reset.reset =>
    refine ⟨_, deliver_with_answers h a, ?_⟩
    simpa [deliver_answers h, HostEvent.answersIn] using ha

theorem deliverAll_of_anonymous_eq {es es' : List HostEvent} (hes : es.map HostEvent.anonymous = es'.map .anonymous)
    {s t : State} (h : deliverAll es s = .next t) {a : List Answer}
    (ha : s.answers.map Answer.data = a.map Answer.data) :
    ∃ a', deliverAll es' { s with answers := a } = .next { t with answers := a' } ∧
      t.answers.map Answer.data = a'.map Answer.data := by
  induction es generalizing es' s a with
  | nil =>
    cases h
    rw [List.map_eq_nil_iff.mp hes.symm]
    exact ⟨a, rfl, ha⟩
  | cons e es ih =>
    obtain ⟨e', es', rfl, he, hes⟩ := List.map_eq_cons_iff.mp hes.symm
    obtain ⟨u, hu, hrest⟩ := deliverAll_cons_next h
    obtain ⟨b, hb, hdata⟩ := deliver_of_anonymous_eq he.symm hu ha
    rw [deliverAll_cons, hb, andThen_next]
    exact ih hes.symm hrest hdata

/-- Settles O51: by induction on the two lists, with the answers so far alike in their data. -/
theorem noMasterIdentity : Obligations.NoMasterIdentity := by
  intro es es' s t t' hes h h'
  obtain ⟨a, ha, hdata⟩ := deliverAll_of_anonymous_eq hes h rfl
  cases ha.symm.trans h'
  exact ⟨rfl, hdata⟩

/-! ## The Secret of an unentangled PADGEN (R23) -/

/-- The two states differ at most in SECRET, and that only while it is cleared. -/
def State.SameShown (s u : State) : Prop := u = s ∨ (s.hasSecret = false ∧ ∃ S, u = { s with secret := S })

/-- What two such states show is the same. -/
theorem State.SameShown.shown {s u : State} (h : s.SameShown u) :
    u.pending = s.pending ∧ u.answers = s.answers ∧ ∀ off, busRead off u = busRead off s := by
  obtain rfl | ⟨_, S, rfl⟩ := h
  · exact ⟨rfl, rfl, fun _ => rfl⟩
  · exact ⟨rfl, rfl, fun off => busRead_with_secret off S s⟩

/-- An event overwrites a cleared SECRET or passes it on. -/
theorem deliver_sameShown {e : HostEvent} {s s' t t' : State} (hs : s.SameShown s') (h : deliver e s = .next t)
    (h' : deliver e s' = .next t') : t.SameShown t' := by
  obtain rfl | ⟨hunentangled, S, rfl⟩ := hs
  · exact .inl (Host.Outcome.next.inj (h'.symm.trans h))
  obtain ⟨S', hd, hpassed⟩ := deliver_withHidden (.inr hunentangled) s.pending s.answers h
  obtain ⟨_, hpending, _⟩ := deliver_keeps_build h
  rw [← deliver_answers h] at hd
  have ht' : t' = { t with secret := S' } := by
    rw [Host.Outcome.next.inj (h'.symm.trans hd), State.withHidden, ← hpending]
  obtain rfl | ⟨hstill, _, _⟩ := hpassed
  · exact .inl ht'
  · exact .inr ⟨hstill, S', ht'⟩

theorem step_sameShown {s s' t t' : State} (hs : s.SameShown s') (h : step s = .next t) (h' : step s' = .next t') :
    t.SameShown t' := by
  obtain ⟨hpending, _, _⟩ := hs.shown
  cases hp : s.pending with
  | nil =>
    rw [step_idle hp] at h
    rw [step_idle (hpending.trans hp)] at h'
    cases h
    cases h'
    exact hs
  | cons e rest =>
    rw [step_event hp] at h
    rw [step_event (hpending.trans hp)] at h'
    refine deliver_sameShown ?_ h h'
    obtain rfl | ⟨hunentangled, S, rfl⟩ := hs
    · exact .inl rfl
    · exact .inr ⟨hunentangled, S, rfl⟩

theorem run_sameShown {n : Nat} {s s' t t' : State} (hs : s.SameShown s')
    (h : Host.Core.run Sys2Proof.core n s = .next t) (h' : Host.Core.run Sys2Proof.core n s' = .next t') :
    t.SameShown t' := by
  induction n generalizing s s' with
  | zero =>
    cases h
    cases h'
    exact hs
  | succ n ih =>
    obtain ⟨u, hu, hrun⟩ := run_succ_next h
    obtain ⟨u', hu', hrun'⟩ := run_succ_next h'
    exact ih (step_sameShown hs hu hu') hrun hrun'

/-- Settles O50: every step keeps the two states equal, or unentangled and equal but for SECRET, which no read shows. -/
theorem clearedSecretUnobservable : Obligations.ClearedSecretUnobservable := by
  intro n s S t u hs ht hu
  obtain ⟨_, hanswers, hreads⟩ := (run_sameShown (.inr ⟨hs, S, rfl⟩) ht hu).shown
  exact ⟨hanswers.symm, fun off => (hreads off).symm⟩

end Sys2Proof.Machine
end

section
/-! PROOFS. What follows of the seed store's rules (40_seedstore.md): the sensitivity and the collisions of XOR_FOLD
(R111, R115), and entanglement (R114). -/

namespace Sys2Proof.Machine

/-! ## XOR_FOLD at one index -/

/-- What the bytes add to index `k` of a Secret, the first of them folded as raw seed byte `i`. -/
def foldedAt (k : Fin 32) : Nat → List Byte → Byte
  | _, [] => 0
  | i, b :: raw => (if k.val = i % 32 then b else 0) ^^^ foldedAt k (i + 1) raw

/-- Each index of the Secret is a sum of its own bytes (R111). -/
theorem xorFoldFrom_get (S : Secret) (i : Nat) (raw : List Byte) (k : Fin 32) :
    (xorFoldFrom S i raw).get k = S.get k ^^^ foldedAt k i raw := by
  induction raw generalizing S i with
  | nil => simp [foldedAt]
  | cons b raw ih =>
    rw [← List.singleton_append, xorFoldFrom_append, ih, xorFoldFrom_singleton_get, List.singleton_append, foldedAt,
      ← BitVec.xor_assoc]
    split <;> simp

theorem xorFold_get (raw : List Byte) (k : Fin 32) : (xorFold raw).get k = foldedAt k 0 raw := by
  have hzero : Secret.zero.get k = 0 := by simp [Vector.get_eq_getElem]
  simp [xorFold, xorFoldFrom_get, hzero]

theorem foldedAt_append (k : Fin 32) (i : Nat) (raw raw' : List Byte) :
    foldedAt k i (raw ++ raw') = foldedAt k i raw ^^^ foldedAt k (i + raw.length) raw' := by
  induction raw generalizing i with
  | nil => simp [foldedAt]
  | cons b raw ih =>
    rw [List.cons_append, foldedAt, ih, foldedAt, List.length_cons, BitVec.xor_assoc, Nat.add_assoc, Nat.add_comm 1]

/-- Replacing one byte adds the difference at its index (R111). -/
theorem foldedAt_set (k : Fin 32) (i : Nat) {raw : List Byte} {j : Nat} (v : Byte) (hj : j < raw.length) :
    foldedAt k i (raw.set j v) =
      foldedAt k i raw ^^^ (if k.val = (i + j) % 32 then raw.getD j 0 ^^^ v else 0) := by
  induction raw generalizing i j with
  | nil => simp at hj
  | cons b raw ih =>
    cases j with
    | zero =>
      simp only [List.set_cons_zero, foldedAt, Nat.add_zero, List.getD_cons_zero]
      split
      · have hswap : b ^^^ foldedAt k (i + 1) raw ^^^ (b ^^^ v) = b ^^^ b ^^^ (v ^^^ foldedAt k (i + 1) raw) := by
          ac_rfl
        rw [hswap, BitVec.xor_self, BitVec.zero_xor]
      · simp
    | succ j =>
      rw [List.set_cons_succ, foldedAt, ih (i + 1) (Nat.lt_of_succ_lt_succ hj), foldedAt, List.getD_cons_succ,
        BitVec.xor_assoc, Nat.add_assoc, Nat.add_comm 1]

theorem foldedAt_replicate_zero (k : Fin 32) (i n : Nat) : foldedAt k i (List.replicate n 0) = 0 := by
  induction n generalizing i with
  | zero => rfl
  | succ n ih =>
    rw [List.replicate_succ, foldedAt, ih]
    simp

/-- Bytes that stop short of an index add nothing to it. -/
theorem foldedAt_of_le {k : Fin 32} {i : Nat} {raw : List Byte} (h : i + raw.length ≤ k.val) :
    foldedAt k i raw = 0 := by
  induction raw generalizing i with
  | nil => rfl
  | cons b raw ih =>
    have hk := k.isLt
    rw [List.length_cons] at h
    rw [foldedAt, if_neg (by omega), ih (by omega)]
    rfl

/-! ## XOR_FOLD's consequences -/

theorem xorFold_set_get (k : Fin 32) {raw : List Byte} {j : Nat} (v : Byte) (hj : j < raw.length) :
    (xorFold (raw.set j v)).get k =
      (xorFold raw).get k ^^^ (if k.val = j % 32 then raw.getD j 0 ^^^ v else 0) := by
  rw [xorFold_get, xorFold_get, foldedAt_set k 0 v hj, Nat.zero_add]

theorem Secret.ext_get {S T : Secret} (h : ∀ k, S.get k = T.get k) : S = T :=
  Vector.ext fun i hi => h ⟨i, hi⟩

/-- Settles O14: each index of the folded Secret is the sum of the bytes that fall on it. -/
theorem xorFoldConsequences : Obligations.XorFoldConsequences := by
  refine ⟨fun raw j d k hj => ?difference, fun raw j v hj hv heq => ?sensitive, fun raw j hj => ?swap,
    fun raw => ?zeros, fun raw k hk => ?short, fun len s hmin hmax => ⟨_, execSetSeed_of_legal hmin hmax s, rfl⟩⟩
  case difference =>
    rw [xorFold_set_get k _ hj]
    split <;> simp
  case sensitive =>
    have hk := xorFold_set_get ⟨j % 32, Nat.mod_lt j (by decide)⟩ v hj
    rw [heq, if_pos rfl] at hk
    have hzero : raw.getD j 0 ^^^ v = 0 := (BitVec.xor_right_inj _).mp (hk.symm.trans BitVec.xor_zero.symm)
    exact hv (BitVec.xor_eq_zero_iff.mp hzero).symm
  case swap =>
    refine Secret.ext_get fun k => ?_
    have hother : (raw.set j (raw.getD (j + 32) 0)).getD (j + 32) 0 = raw.getD (j + 32) 0 := by simp
    rw [xorFold_set_get k _ (by simpa using hj), xorFold_set_get k _ (by omega), hother, Nat.add_mod_right]
    split
    · rw [BitVec.xor_comm (raw.getD (j + 32) 0), BitVec.xor_assoc, BitVec.xor_self, BitVec.xor_zero]
    · simp
  case zeros =>
    refine Secret.ext_get fun k => ?_
    rw [xorFold_get, xorFold_get, foldedAt_append, foldedAt_replicate_zero]
    exact BitVec.xor_zero
  case short => rw [xorFold_get, foldedAt_of_le (by omega)]

/-! ## SETSEED -/

/-- The digest the spec lists for the raw seed 00 01 .. 0F (S11). -/
theorem sha256_seedBytes : (sha256 seedBytes).toList =
    [0xBE, 0x45, 0xCB, 0x26, 0x05, 0xBF, 0x36, 0xBE, 0xBD, 0xE6, 0x84, 0x84, 0x1A, 0x28, 0xF0, 0xFD,
     0x43, 0xC6, 0x98, 0x50, 0xA3, 0xDC, 0xE5, 0xFE, 0xDB, 0xA6, 0x99, 0x28, 0xEE, 0x3A, 0x89, 0x91] := by
  decide +kernel

/-- Settles O15: on a SHA256 build the Secret of a legal seed is its digest, which the kernel evaluates. -/
theorem setSeedOnSha256Build : Obligations.SetSeedOnSha256Build := by
  intro s hreduce hraw
  refine ⟨_, execSetSeed_of_legal (by decide) (by decide) s, rfl, rfl, rfl, ?_⟩
  rw [finish_secret, entangle_secret, hreduce, inputBytes, hraw, reduce, sha256_seedBytes]

/-- Running the same SETSEED again changes nothing more: IN_BUF and the build are as before (R114). -/
theorem execSetSeed_idempotent {len : Nat} {s t : State} (h : execSetSeed len s = .next t) :
    execSetSeed len t = .next t := by
  rcases execSetSeed_cases len s with ⟨hmax, e⟩ | ⟨hmin, e⟩ | ⟨hmin, hmax, e⟩ <;> cases e.symm.trans h
  · exact execSetSeed_of_gt hmax _
  · exact execSetSeed_of_lt hmin _
  · exact execSetSeed_of_legal hmin hmax _

/-- A step that entangles PADGEN serves a SETSEED of legal length (R22, R114). -/
theorem step_entangles {s t : State} (h : step s = .next t) (hs : s.hasSecret = false) (ht : t.hasSecret = true) :
    ∃ e rest len, s.pending = e :: rest ∧ e.Runs (.setSeed len) ∧ 16 ≤ len ∧ len ≤ 1024 := by
  rcases step_cases h with ⟨_, rfl⟩ | ⟨e, rest, hp, hd⟩
  · simp [hs] at ht
  · by_contra hnone
    have hkept := deliver_keeps_unentangled (s := { s with pending := rest })
      (fun len hruns hlegal => hnone ⟨e, rest, len, hp, hruns, hlegal⟩) hs hd
    simp [hkept] at ht

/-- Settles O16: SETSEED reads the build and the raw seed only, and is the one command that entangles. -/
theorem setSeedConsequences : Obligations.SetSeedConsequences := by
  refine ⟨fun len s s' hbuild hmin hmax hraw => ?_, fun s t => step_entangles, fun len s t u ht hu => ?_⟩
  · refine ⟨_, _, execSetSeed_of_legal hmin hmax s, execSetSeed_of_legal hmin hmax s', ?_, rfl, rfl⟩
    rw [finish_secret, finish_secret, entangle_secret, entangle_secret, inputBytes, inputBytes, hbuild, hraw]
  · exact Host.Outcome.next.inj (hu.symm.trans (execSetSeed_idempotent ht))

end Sys2Proof.Machine
end

section
/-! PROOFS. The laws of derive (R134) and of the counter (42_counter.md R151, R153, R136), and pads requested one after
another by any masters (R70, R71, R246). -/

namespace Sys2Proof.Machine

/-! ## The laws of derive -/

theorem derive_getD (k : Byte) (S : Secret) (c : BitVec 8) {len i : Nat} (h : i < len) :
    (derive k S c len).getD i 0 = padByte k S c i := by
  have hlen : i < (derive k S c len).length := by rwa [derive_length]
  rw [List.getD_eq_getElem _ _ hlen, derive_getElem]

/-- Adding to the counter adds to every pad byte (R134). -/
theorem padByte_add (k : Byte) (S : Secret) (c d : BitVec 8) (i : Nat) :
    padByte k S (c + d) i = padByte k S c i + d := by
  rw [← BitVec.toNat_inj, BitVec.toNat_add, padByte_toNat, padByte_toNat, BitVec.toNat_add]
  omega

/-- The pad bytes of two counters differ as the counters do (R134). -/
theorem padByte_sub (k : Byte) (S : Secret) (c c' : BitVec 8) (i : Nat) :
    padByte k S c' i - padByte k S c i = c' - c := by
  have hadd := padByte_add k S c (c' - c) i
  rw [BitVec.add_comm c, BitVec.sub_add_cancel] at hadd
  rw [hadd, add_sub_cancel_left]

theorem padByte_injective (k : Byte) (S : Secret) {c c' : BitVec 8} (h : c ≠ c') (i : Nat) :
    padByte k S c i ≠ padByte k S c' i := by
  intro heq
  have hsub := padByte_sub k S c c' i
  rw [heq, BitVec.sub_self] at hsub
  exact h (sub_eq_zero.mp hsub.symm).symm

/-- A number of bytes is a period of the pad when it is a multiple of 32 and `K` times it one of 256 (R134). -/
theorem padByte_periodic {k : Byte} {n : Nat} (h32 : 32 ∣ n) (hk : 256 ∣ n * k.toNat) (S : Secret) (c : BitVec 8) :
    Function.Periodic (padByte k S c) n := by
  intro i
  obtain ⟨a, rfl⟩ := h32
  obtain ⟨b, hb⟩ := hk
  have hmod : (i + 32 * a) % 32 = i % 32 := Nat.add_mul_mod_self_left i 32 a
  rw [← BitVec.toNat_inj, padByte_toNat, padByte_toNat, Nat.add_mul, hb]
  simp only [hmod]
  omega

theorem padByte_periodic_256 (k : Byte) (S : Secret) (c : BitVec 8) : Function.Periodic (padByte k S c) 256 :=
  padByte_periodic (by decide) (Nat.dvd_mul_right 256 _) S c

/-- R134's period: a multiple of 32, and of the least number that `K` takes to a multiple of 256. -/
theorem padByte_periodic_lcm (k : Byte) (S : Secret) (c : BitVec 8) :
    Function.Periodic (padByte k S c) (Nat.lcm 32 (256 / Nat.gcd k.toNat 256)) := by
  refine padByte_periodic (Nat.dvd_lcm_left _ _) ?_ S c
  have hgcd : 256 ∣ 256 / Nat.gcd k.toNat 256 * k.toNat :=
    ⟨k.toNat / Nat.gcd k.toNat 256, by
      rw [Nat.div_mul_right_comm (Nat.gcd_dvd_right _ _), Nat.mul_div_assoc _ (Nat.gcd_dvd_left _ _)]⟩
  exact hgcd.trans (Nat.mul_dvd_mul_right (Nat.dvd_lcm_right _ _) _)

/-- A least period divides every period. -/
theorem dvd_of_periodic_of_isLeast {f : Nat → Byte} {p n : Nat}
    (hp : IsLeast { q | 0 < q ∧ ∀ i, f (i + q) = f i } p) (hn : Function.Periodic f n) : p ∣ n := by
  obtain ⟨⟨hpos, hperiodic⟩, hleast⟩ := hp
  refine Nat.dvd_of_mod_eq_zero (Nat.eq_zero_of_not_pos fun hmod => ?_)
  have hrest : Function.Periodic f (n % p) := fun i => by
    have hq : Function.Periodic f (n / p * p) := Function.Periodic.nat_mul hperiodic _
    rw [← hq (i + n % p), Nat.add_assoc, Nat.mod_add_div' n p, hn i]
  have := hleast ⟨hmod, hrest⟩
  have := Nat.mod_lt n hpos
  omega

theorem lcm_period_le (k : Byte) : Nat.lcm 32 (256 / Nat.gcd k.toNat 256) ≤ 256 :=
  Nat.le_of_dvd (by decide)
    (Nat.lcm_dvd (by decide) (Nat.div_dvd_of_dvd (Nat.gcd_dvd_right k.toNat 256)))

/-- Settles O18: each law is one of pad bytes, read at an index of the pad. -/
theorem deriveLaws : Obligations.DeriveLaws := by
  intro k S c
  refine ⟨fun l1 l2 h => ?take, fun d len i hi => ?add, fun c' len i hc hi => ?differ, fun len i hi => ?repeats,
    fun p hp => dvd_of_periodic_of_isLeast hp (padByte_periodic_lcm k S c), lcm_period_le k, rfl⟩
  case take => rw [derive, derive, ← List.map_take, List.take_range, Nat.min_eq_left h]
  case add => rw [derive_getD k S _ hi, derive_getD k S _ hi, padByte_add]
  case differ =>
    rw [derive_getD k S _ hi, derive_getD k S _ hi]
    exact ⟨padByte_sub k S c c' i, padByte_injective k S hc i⟩
  case repeats =>
    rw [derive_getD k S c hi, derive_getD k S c (by omega), padByte_periodic_256 k S c i]

/-! ## The writers of COUNTER -/

/-- A NEXTPAD that finishes OK issued a pad (R133). -/
theorem execNextPad_of_ok {len : Nat} {s t : State} (h : execNextPad len s = .next t) (herr : t.err = 0) :
    s.hasSecret = true ∧ 1 ≤ len ∧ len ≤ 1024 ∧
      t = finish .ok (advanceCounter (issuePad (derive s.build.k s.secret s.counter len) s)) := by
  rcases execNextPad_cases len s with ⟨_, e⟩ | ⟨_, _, e⟩ | ⟨hs, hmin, hmax, e⟩ <;> cases e.symm.trans h
  · exact absurd herr (by simp [StatusCode.code])
  · exact absurd herr (by simp [StatusCode.code])
  · exact ⟨hs, hmin, hmax, rfl⟩

/-- A NEXTPAD that fails leaves the key (R133). -/
theorem execNextPad_of_error {len : Nat} {s t : State} (h : execNextPad len s = .next t) (herr : t.err ≠ 0) :
    s.SameKey t := by
  rcases execNextPad_cases len s with ⟨_, e⟩ | ⟨_, _, e⟩ | ⟨_, _, _, e⟩ <;> cases e.symm.trans h
  · exact ⟨rfl, rfl, rfl, rfl⟩
  · exact ⟨rfl, rfl, rfl, rfl⟩
  · exact absurd rfl herr

/-- A SETSEED entangles when it finishes OK, and otherwise leaves COUNTER (R112, R151). -/
theorem execSetSeed_counter {len : Nat} {s t : State} (h : execSetSeed len s = .next t) :
    (t.err = 0 → t.counter = 0) ∧ (t.err ≠ 0 → t.counter = s.counter) := by
  rcases execSetSeed_cases len s with ⟨_, e⟩ | ⟨_, e⟩ | ⟨_, _, e⟩ <;> cases e.symm.trans h
  · exact ⟨fun herr => absurd herr (by simp [StatusCode.code]), fun _ => rfl⟩
  · exact ⟨fun herr => absurd herr (by simp [StatusCode.code]), fun _ => rfl⟩
  · exact ⟨fun _ => rfl, fun herr => absurd rfl herr⟩

/-- What an event that runs a command leaves is what the command leaves. -/
theorem exec_of_deliver_runs {e : HostEvent} {i : Instr} {s t : State} (hi : e.Runs i) (h : deliver e s = .next t) :
    exec i s = .next t := (deliver_of_runs hi s).symm.trans h

/-- Settles O19: a command's case equations give COUNTER, and every other event keeps the key. -/
theorem counterWriters : Obligations.CounterWriters := by
  intro s t e rest hp h
  rw [step_event hp] at h
  refine ⟨fun len hi herr => ?nextPad, fun len hi => (execSetSeed_counter (exec_of_deliver_runs hi h)).1,
    fun hi => ?resetState, fun he => ?reset, fun len hi herr => ?failed, fun hother hnoReset he => ?other⟩
  case nextPad =>
    obtain ⟨_, _, _, rfl⟩ := execNextPad_of_ok (exec_of_deliver_runs hi h) herr
    exact advance_toNat s.counter
  case resetState =>
    cases exec_of_deliver_runs hi h
    rfl
  case reset =>
    subst he
    cases h
    rfl
  case failed =>
    rcases hi with hi | hi
    · obtain ⟨_, _, _, hcounter⟩ := execNextPad_of_error (exec_of_deliver_runs hi h) herr
      exact hcounter.symm
    · exact (execSetSeed_counter (exec_of_deliver_runs hi h)).2 herr
  case other =>
    rcases deliver_sameKey_or_writer h with ⟨_, _, _, hcounter⟩ | hreset | ⟨len, hi⟩ | hi | ⟨_, len, hi⟩
    · exact hcounter.symm
    · exact absurd hreset he
    · exact absurd hi (hother len).2
    · exact absurd hi hnoReset
    · exact absurd hi (hother len).1

/-! ## COUNTER as the number of pads issued (R153) -/

theorem HostEvent.isNextPad_iff (e : HostEvent) : e.isNextPad = true ↔ ∃ len, e.Runs (.nextPad len) := by
  unfold HostEvent.isNextPad HostEvent.Runs
  cases e.command? with
  | none => simp
  | some w =>
    cases hd : decode w with
    | error c => simp [hd]
    | ok i => cases i <;> simp [hd]

/-- 1 for a NEXTPAD that finished OK, as `padsIssued` counts it. -/
def padCount (e : HostEvent) (t : State) : Nat := if e.isNextPad && t.err == 0 then 1 else 0

theorem padsIssued_succ_nil {n : Nat} {s : State} (hp : s.pending = []) : padsIssued (n + 1) s = padsIssued n s := by
  simp [padsIssued, step_idle hp, hp]

theorem padsIssued_succ_cons {n : Nat} {s t : State} {e : HostEvent} {rest : List HostEvent}
    (hp : s.pending = e :: rest) (h : step s = .next t) : padsIssued (n + 1) s = padCount e t + padsIssued n t := by
  simp [padsIssued, h, hp, padCount]

/-- An event that keeps the Secret advances COUNTER by the pads it issues. -/
theorem deliver_counts_pads {e : HostEvent} {s t : State} (he : e.KeepsSecret) (h : deliver e s = .next t) :
    t.counter.toNat = (s.counter.toNat + padCount e t) % 256 ∧ t.secret = s.secret := by
  obtain ⟨hreset, hseed, hresetState⟩ := he
  by_cases hpad : e.isNextPad = true ∧ t.err = 0
  · obtain ⟨len, hi⟩ := e.isNextPad_iff.mp hpad.1
    obtain ⟨_, _, _, ht⟩ := execNextPad_of_ok (exec_of_deliver_runs hi h) hpad.2
    have hcount : padCount e t = 1 := by simp [padCount, hpad]
    rw [hcount, ht]
    exact ⟨advance_toNat s.counter, rfl⟩
  · have hcount : padCount e t = 0 := by simpa [padCount] using hpad
    have hkey : s.SameKey t := by
      rcases deliver_sameKey_or_writer h with hkey | he | ⟨len, hi⟩ | hi | ⟨_, len, hi⟩
      · exact hkey
      · exact absurd he hreset
      · exact absurd hi (hseed len)
      · exact absurd hi hresetState
      · exact execNextPad_of_error (exec_of_deliver_runs hi h) fun herr => hpad ⟨e.isNextPad_iff.mpr ⟨len, hi⟩, herr⟩
    obtain ⟨_, hsecret, _, hcounter⟩ := hkey
    have hlt := s.counter.isLt
    rw [hcount, ← hcounter, ← hsecret]
    exact ⟨by omega, rfl⟩

theorem run_counts_pads {n : Nat} {s t : State} (hs : ∀ e ∈ s.pending, e.KeepsSecret)
    (h : Host.Core.run Sys2Proof.core n s = .next t) :
    t.counter.toNat = (s.counter.toNat + padsIssued n s) % 256 ∧ t.secret = s.secret := by
  induction n generalizing s with
  | zero =>
    cases h
    exact ⟨(Nat.mod_eq_of_lt t.counter.isLt).symm, rfl⟩
  | succ n ih =>
    obtain ⟨u, hu, hrun⟩ := run_succ_next h
    cases hp : s.pending with
    | nil =>
      cases (step_idle hp).symm.trans hu
      rw [padsIssued_succ_nil hp]
      exact ih hs hrun
    | cons e rest =>
      rw [hp] at hs
      obtain ⟨he, hrest⟩ := List.forall_mem_cons.mp hs
      rw [padsIssued_succ_cons hp hu]
      rw [step_event hp] at hu
      obtain ⟨_, hpending, _⟩ := deliver_keeps_build hu
      obtain ⟨hcounter, hsecret⟩ := deliver_counts_pads he hu
      obtain ⟨hcounter', hsecret'⟩ := ih (by rwa [hpending]) hrun
      exact ⟨by rw [hcounter', hcounter]; simp only; omega, hsecret'.trans hsecret⟩

/-- Settles O21: SETSEED leaves COUNTER 0, and each event after it counts the pads it issues. -/
theorem counterCountsPadsIssued : Obligations.CounterCountsPadsIssued := by
  intro s0 s t e rest len n hp hi hstep herr hrest hrun
  rw [step_event hp] at hstep
  obtain ⟨_, hpending, _⟩ := deliver_keeps_build hstep
  have hzero : s.counter = 0 := (execSetSeed_counter (exec_of_deliver_runs hi hstep)).1 herr
  obtain ⟨hcounter, hsecret⟩ := run_counts_pads (by rwa [hpending]) hrun
  rw [hzero] at hcounter
  exact ⟨by simpa using hcounter, hsecret⟩

/-! ## Pads one after another -/

/-- The event runs a NEXTPAD of a legal length. -/
def HostEvent.RequestsPad (e : HostEvent) : Prop := ∃ len, e.Runs (.nextPad len) ∧ 1 ≤ len ∧ len ≤ 1024

/-- Every pad asked for of an entangled PADGEN is issued, all from one Secret and each with its own counter value (R133,
R151). -/
theorem deliverAll_requests {es : List HostEvent} (hes : ∀ e ∈ es, e.RequestsPad) {s : State}
    (hs : s.hasSecret = true) :
    ∃ t, deliverAll es s = .next t ∧ t.build = s.build ∧ t.secret = s.secret ∧ t.hasSecret = true ∧
      t.counter.toNat = (s.counter.toNat + es.length) % 256 := by
  induction es generalizing s with
  | nil => exact ⟨s, rfl, rfl, rfl, hs, (Nat.mod_eq_of_lt s.counter.isLt).symm⟩
  | cons e es ih =>
    obtain ⟨⟨len, hi, hmin, hmax⟩, hes⟩ := List.forall_mem_cons.mp hes
    have hd := (deliver_of_runs hi s).trans (execNextPad_of_legal hs hmin hmax)
    obtain ⟨t, ht, hbuild, hsecret, hhas, hcounter⟩ :=
      ih (s := finish .ok (advanceCounter (issuePad (derive s.build.k s.secret s.counter len) s))) hes hs
    refine ⟨t, by rw [deliverAll_cons, hd, andThen_next, ht], hbuild, hsecret, hhas, ?_⟩
    rw [hcounter, finish_counter, advanceCounter_counter, advance_toNat, issuePad_counter, List.length_cons]
    omega

/-- Every length a command can take without an error fits the LEN field (R7, R92). -/
theorem lt_lenLimit_of_le {len : Nat} (h : len ≤ 1024) : decide (len < Config.lenLimit) = true :=
  decide_eq_true (h.trans_lt (by decide))

/-- The event of a command that has an encoding runs it (R98, R99). -/
theorem cmdEvent_runs {i : Instr} (hi : i.wellFormed = true) (master : Nat) : (cmdEvent master i).Runs i :=
  (HostEvent.runs_iff _ _).mpr ⟨master, offCmd, encode i, rfl, by decide, decodeEncodeRoundTrip i hi⟩

theorem repeatEvents_succ (n : Nat) (body : List HostEvent) :
    repeatEvents (n + 1) body = repeatEvents n body ++ body := by
  rw [repeatEvents, List.replicate_succ', List.flatten_append, List.flatten_singleton, repeatEvents]

theorem repeatEvents_singleton (n : Nat) (e : HostEvent) : repeatEvents n [e] = List.replicate n e := by
  simp [repeatEvents]

/-- The pad after `n + 1` requests of one length is that of the counter `n` further on (R136). -/
theorem deliverAll_repeat_nextPad {s : State} (hs : s.hasSecret = true) {len : Nat} (hmin : 1 ≤ len) (hmax : len ≤ 1024)
    (master n : Nat) :
    ∃ t, deliverAll (repeatEvents (n + 1) [cmdEvent master (.nextPad len)]) s = .next t ∧
      bufReadBytes .padBuf len t =
        derive s.build.k s.secret (BitVec.ofNat 8 ((s.counter.toNat + n) % 256)) len := by
  have hruns : (cmdEvent master (.nextPad len)).Runs (.nextPad len) :=
    cmdEvent_runs (i := .nextPad len) (lt_lenLimit_of_le hmax) master
  have hrequests : ∀ e ∈ List.replicate n (cmdEvent master (.nextPad len)), e.RequestsPad := fun e he =>
    List.eq_of_mem_replicate he ▸ ⟨len, hruns, hmin, hmax⟩
  obtain ⟨u, hu, hbuild, hsecret, hhas, hcounter⟩ := deliverAll_requests hrequests hs
  have hlast := (deliver_of_runs hruns u).trans (execNextPad_of_legal hhas hmin hmax)
  have hcounter' : u.counter = BitVec.ofNat 8 ((s.counter.toNat + n) % 256) := by
    rw [List.length_replicate] at hcounter
    rw [← hcounter, BitVec.ofNat_toNat, BitVec.setWidth_eq]
  refine ⟨finish .ok (advanceCounter (issuePad (derive u.build.k u.secret u.counter len) u)), ?_, ?_⟩
  · rw [repeatEvents_succ, repeatEvents_singleton, deliverAll_append, hu, andThen_next, deliverAll_cons, hlast,
      andThen_next, deliverAll_nil]
  · rw [finish_bufReadBytes, advanceCounter_bufReadBytes, bufReadBytes_issuePad_derive, hbuild, hsecret, hcounter']

/-- Settles O22: the pad depends on the number of requests modulo 256 only. -/
theorem padSequenceRepeatsAfter256 : Obligations.PadSequenceRepeatsAfter256 := by
  refine ⟨fun s master len n hs hmin hmax => deliverAll_repeat_nextPad hs hmin hmax master n,
    fun s t u master len n hs hmin hmax ht hu => ?_⟩
  obtain ⟨t', ht', hpad⟩ := deliverAll_repeat_nextPad hs hmin hmax master n
  obtain ⟨u', hu', hpad'⟩ := deliverAll_repeat_nextPad hs hmin hmax master (n + 256)
  cases ht'.symm.trans ht
  cases hu'.symm.trans hu
  rw [hpad, hpad', ← Nat.add_assoc, Nat.add_mod_right]

/-! ## Several masters (R71) -/

theorem flatten_set_perm {queues : List (List HostEvent)} {m : Nat} {e : HostEvent} {q : List HostEvent}
    (h : queues[m]? = some (e :: q)) : (e :: (queues.set m q).flatten).Perm queues.flatten := by
  induction queues generalizing m with
  | nil => simp at h
  | cons p queues ih =>
    cases m with
    | zero =>
      cases h
      rfl
    | succ m =>
      rw [List.set_cons_succ, List.flatten_cons, List.flatten_cons]
      exact List.perm_middle.symm.trans ((ih h).append_left p)

/-- An arbiter adds and loses no event (R71). -/
theorem Interleaves.perm {queues : List (List HostEvent)} {es : List HostEvent} (h : Interleaves queues es) :
    es.Perm queues.flatten := by
  induction h with
  | done queues hq => rw [List.flatten_eq_nil_iff.mpr hq]
  | serve queues m e q events hm _ ih => exact (ih.cons e).trans (flatten_set_perm hm)

/-- An arbiter keeps the order of each master's events (R71). -/
theorem Interleaves.sublist {queues : List (List HostEvent)} {es : List HostEvent} (h : Interleaves queues es) :
    ∀ q ∈ queues, q.Sublist es := by
  induction h with
  | done queues hq =>
    intro q hmem
    rw [hq q hmem]
  | serve queues m e q events hm _ ih =>
    intro p hp
    obtain ⟨i, hi⟩ := List.mem_iff_getElem?.mp hp
    by_cases him : m = i
    · subst him
      cases hm.symm.trans hi
      obtain ⟨hlt, _⟩ := List.getElem?_eq_some_iff.mp hm
      exact (ih q (List.mem_iff_getElem?.mpr ⟨m, List.getElem?_set_self hlt⟩)).cons_cons e
    · refine (ih p (List.mem_iff_getElem?.mpr ⟨i, ?_⟩)).cons e
      rw [List.getElem?_set_ne him, hi]

theorem Interleaves.length_eq {queues : List (List HostEvent)} {es : List HostEvent} (h : Interleaves queues es) :
    es.length = (queues.map List.length).sum := by
  rw [h.perm.length_eq, List.length_flatten]

/-- Settles O52: the events served are those of the queues, and each advances COUNTER once. -/
theorem interleavedPadRequests : Obligations.InterleavedPadRequests := by
  refine ⟨fun queues es h => ⟨h.sublist, h.perm, h.length_eq⟩, fun queues es s h hq hs => ?_,
    fun es s t hes hs hpos hlt ht => ?_⟩
  · have hes : ∀ e ∈ es, e.RequestsPad := fun e he => by
      obtain ⟨q, hmem, he⟩ := List.mem_flatten.mp (h.perm.mem_iff.mp he)
      exact hq q hmem e he
    obtain ⟨t, ht, _, _, _, hcounter⟩ := deliverAll_requests hes hs
    exact ⟨t, ht, h.length_eq ▸ hcounter⟩
  · obtain ⟨t', ht', _, _, _, hcounter⟩ := deliverAll_requests hes hs
    cases ht'.symm.trans ht
    intro heq
    rw [heq] at hcounter
    have := s.counter.isLt
    omega

end Sys2Proof.Machine
end

section
/-! PROOFS. What a command reads and writes (R68, R256): its frame, its result registers (R162) and its errors (R213);
the cipher's round trip (R165, R166) and two PADGENs in lockstep (R136, R246). -/

namespace Sys2Proof.Machine

/-! ## The bytes a command writes -/

theorem execSetSeed_byteAt {len : Nat} {s t : State} (h : execSetSeed len s = .next t) (a : Nat) :
    t.byteAt a = s.byteAt a := by
  rcases execSetSeed_cases len s with ⟨_, e⟩ | ⟨_, e⟩ | ⟨_, _, e⟩ <;> cases e.symm.trans h <;> rfl

/-- NEXTPAD writes no byte outside its range, and no byte outside PAD_BUF (R133). -/
theorem execNextPad_byteAt_other {len : Nat} {s t : State} (h : execNextPad len s = .next t) {a : Nat}
    (ha : ¬ (0x800 ≤ a ∧ a < 0x800 + len) ∨ a < 0x800 ∨ 0xC00 ≤ a) : t.byteAt a = s.byteAt a := by
  rcases execNextPad_cases len s with ⟨_, e⟩ | ⟨_, _, e⟩ | ⟨_, _, hmax, e⟩ <;> cases e.symm.trans h
  · rfl
  · rfl
  · rw [finish_byteAt, advanceCounter_byteAt, issuePad_byteAt_other]
    rw [derive_length]
    omega

/-- An ENCRYPT or DECRYPT fails, or stores its result and sets OUT_LEN (R160, R161, R162). -/
theorem exec_cipher_cases {len : Nat} {i : Instr} {s t : State} (hi : i = .encrypt len ∨ i = .decrypt len)
    (h : exec i s = .next t) :
    (t.err ≠ 0 ∧ ∃ c, t = cipherFail c s) ∨
    (t.err = 0 ∧ len ≤ s.padLen.toNat ∧ t = cipherDone (cipherBytes len s) s) := by
  rcases hi with rfl | rfl
  · rcases execEncrypt_cases len s with ⟨_, e⟩ | ⟨hle, e⟩ <;> cases e.symm.trans h
    · exact .inl ⟨by simp [StatusCode.code], _, rfl⟩
    · exact .inr ⟨rfl, hle, rfl⟩
  · rcases execDecrypt_cases len s with ⟨_, e⟩ | ⟨_, _, e⟩ | ⟨hle, _, e⟩ <;> cases e.symm.trans h
    · exact .inl ⟨by simp [StatusCode.code], _, rfl⟩
    · exact .inl ⟨by simp [StatusCode.code], _, rfl⟩
    · exact .inr ⟨rfl, hle, rfl⟩

theorem exec_cipher_byteAt_other {len : Nat} {i : Instr} {s t : State} (hi : i = .encrypt len ∨ i = .decrypt len)
    (h : exec i s = .next t) {a : Nat} (ha : ¬ (0xC00 ≤ a ∧ a < 0xC00 + len)) : t.byteAt a = s.byteAt a := by
  rcases exec_cipher_cases hi h with ⟨_, c, rfl⟩ | ⟨_, _, rfl⟩
  · rfl
  · exact cipherDone_cipherBytes_byteAt_other ha s

/-- No command writes below PAD_BUF, so none writes IN_BUF (R68). -/
theorem exec_keeps_inBuf {i : Instr} {s t : State} (h : exec i s = .next t) {j : Nat} (hj : j < 1024) :
    bufRead .inBuf j t = bufRead .inBuf j s := by
  have hlow : Buf.inBuf.base + j < 0x800 := Nat.add_lt_add_left hj 0x400
  rw [bufRead, bufRead]
  cases i with
  | setSeed len => exact execSetSeed_byteAt h _
  | nextPad len => exact execNextPad_byteAt_other h (.inr (.inl hlow))
  | encrypt len => exact exec_cipher_byteAt_other (.inl rfl) h (by omega)
  | decrypt len => exact exec_cipher_byteAt_other (.inr rfl) h (by omega)
  | resetState =>
    cases h
    rfl

/-! ## The length registers -/

theorem exec_setSeed_lengths {len : Nat} {s t : State} (h : exec (.setSeed len) s = .next t) :
    t.padLen = s.padLen ∧ t.outLen = s.outLen := by
  rcases execSetSeed_cases len s with ⟨_, e⟩ | ⟨_, e⟩ | ⟨_, _, e⟩ <;> cases e.symm.trans h <;> exact ⟨rfl, rfl⟩

theorem exec_nextPad_lengths {len : Nat} {s t : State} (h : exec (.nextPad len) s = .next t) :
    t.padLen = (if t.err = 0 then BitVec.ofNat 11 len else s.padLen) ∧ t.outLen = s.outLen := by
  by_cases herr : t.err = 0
  · obtain ⟨_, _, _, ht⟩ := execNextPad_of_ok h herr
    rw [if_pos herr, ht]
    exact ⟨by simp, rfl⟩
  · rw [if_neg herr]
    rcases execNextPad_cases len s with ⟨_, e⟩ | ⟨_, _, e⟩ | ⟨_, _, _, e⟩ <;> cases e.symm.trans h
    · exact ⟨rfl, rfl⟩
    · exact ⟨rfl, rfl⟩
    · exact absurd rfl herr

theorem exec_cipher_lengths {len : Nat} {i : Instr} {s t : State} (hi : i = .encrypt len ∨ i = .decrypt len)
    (h : exec i s = .next t) : t.padLen = s.padLen ∧ t.outLen = if t.err = 0 then BitVec.ofNat 11 len else 0 := by
  rcases exec_cipher_cases hi h with ⟨herr, c, ht⟩ | ⟨herr, _, ht⟩
  · rw [if_neg herr, ht]
    exact ⟨rfl, rfl⟩
  · rw [if_pos herr, ht]
    exact ⟨rfl, by simp⟩

/-- Settles O26: a cipher command fails or stores its result, and no other command writes OUT_LEN or OUT_BUF. -/
theorem cipherResultRegisters : Obligations.CipherResultRegisters := by
  refine ⟨fun len i s t hi ⟨hpadLen, _⟩ h => ?cipher, fun i s t hi h => ?other⟩
  case cipher =>
    rcases exec_cipher_cases hi h with ⟨herr, c, rfl⟩ | ⟨herr, hle, rfl⟩
    · exact ⟨fun h0 => absurd h0 herr, fun _ => ⟨rfl, fun _ => rfl⟩, fun _ _ => rfl, Nat.zero_le _⟩
    · have hlen := cipherDone_outLen_toNat hle
      refine ⟨fun _ => ⟨hlen, fun j hj => bufRead_cipherDone_cipherBytes hj s⟩, fun h0 => absurd herr h0,
        fun j hj => cipherDone_cipherBytes_byteAt_other ?_ s, by omega⟩
      rw [hlen] at hj
      simp only [Buf.base]
      omega
  case other =>
    cases i with
    | setSeed len => exact ⟨(exec_setSeed_lengths h).2, fun _ => execSetSeed_byteAt h _⟩
    | nextPad len =>
      exact ⟨(exec_nextPad_lengths h).2, fun j => execNextPad_byteAt_other h (.inr (.inr (Nat.le_add_right _ j)))⟩
    | encrypt len => exact absurd rfl (hi len).1
    | decrypt len => exact absurd rfl (hi len).2
    | resetState =>
      cases h
      exact ⟨rfl, fun _ => rfl⟩

/-- A command that fails only reports its code, and a cipher command also clears OUT_LEN (R213, R162). -/
theorem exec_error_cases {i : Instr} {s t : State} (h : exec i s = .next t) (herr : t.err ≠ 0) :
    ((∀ len, i ≠ .encrypt len ∧ i ≠ .decrypt len) ∧ ∃ c, t = finish c s) ∨
    ((∃ len, i = .encrypt len ∨ i = .decrypt len) ∧ ∃ c, t = cipherFail c s) := by
  rcases exec_cases h with ⟨len, rfl, hseed⟩ | ⟨len, rfl, hpad⟩ | ⟨len, hi, _⟩ | ⟨_, rfl⟩
  · rcases hseed with ⟨_, rfl⟩ | ⟨_, rfl⟩ | ⟨_, _, rfl⟩
    · exact .inl ⟨by simp, _, rfl⟩
    · exact .inl ⟨by simp, _, rfl⟩
    · exact absurd rfl herr
  · rcases hpad with ⟨_, rfl⟩ | ⟨_, _, rfl⟩ | ⟨_, _, _, rfl⟩
    · exact .inl ⟨by simp, _, rfl⟩
    · exact .inl ⟨by simp, _, rfl⟩
    · exact absurd rfl herr
  · rcases exec_cipher_cases hi h with ⟨_, hc⟩ | ⟨h0, _⟩
    · exact .inr ⟨⟨len, hi⟩, hc⟩
    · exact absurd h0 herr
  · exact absurd rfl herr

/-- Settles O42: the two ways of failing. -/
theorem errorsChangeNothingElse : Obligations.ErrorsChangeNothingElse := by
  intro i s t h herr
  rcases exec_error_cases h herr with ⟨hi, c, rfl⟩ | ⟨⟨len, hi⟩, c, rfl⟩
  · refine ⟨rfl, fun ⟨len, hcipher⟩ => ?_, fun _ => rfl⟩
    rcases hcipher with hcipher | hcipher
    · exact absurd hcipher (hi len).1
    · exact absurd hcipher (hi len).2
  · refine ⟨rfl, fun _ => rfl, fun hother => ?_⟩
    rcases hi with hi | hi
    · exact absurd hi (hother len).1
    · exact absurd hi (hother len).2

/-! ## Two states with one key -/

theorem State.SameKey.symm {s t : State} (h : s.SameKey t) : t.SameKey s := by
  obtain ⟨hbuild, hsecret, hhas, hcounter⟩ := h
  exact ⟨hbuild.symm, hsecret.symm, hhas.symm, hcounter.symm⟩

theorem State.SameKey.trans {s t u : State} (h : s.SameKey t) (h' : t.SameKey u) : s.SameKey u := by
  obtain ⟨hbuild, hsecret, hhas, hcounter⟩ := h
  obtain ⟨hbuild', hsecret', hhas', hcounter'⟩ := h'
  exact ⟨hbuild.trans hbuild', hsecret.trans hsecret', hhas.trans hhas', hcounter.trans hcounter'⟩

theorem execSetSeed_sameKey {len : Nat} {s s' t t' : State} (hkey : s.SameKey s')
    (hin : len ≤ 1024 → bufReadBytes .inBuf len s = bufReadBytes .inBuf len s') (h : execSetSeed len s = .next t)
    (h' : execSetSeed len s' = .next t') : t.SameKey t' := by
  rcases execSetSeed_cases len s with ⟨hmax, e⟩ | ⟨hmin, e⟩ | ⟨hmin, hmax, e⟩ <;> cases e.symm.trans h
  · cases (execSetSeed_of_gt hmax s').symm.trans h'
    exact hkey
  · cases (execSetSeed_of_lt hmin s').symm.trans h'
    exact hkey
  · cases (execSetSeed_of_legal hmin hmax s').symm.trans h'
    obtain ⟨hbuild, _⟩ := hkey
    have hsecret : reduce s.build.reduce (inputBytes len s) = reduce s'.build.reduce (inputBytes len s') := by
      rw [inputBytes, inputBytes, hbuild, hin hmax]
    exact ⟨hbuild, hsecret, rfl, rfl⟩

/-- One key gives one status, one next key and one pad (R130, R136). -/
theorem execNextPad_sameKey {len : Nat} {s s' t t' : State} (hkey : s.SameKey s') (h : execNextPad len s = .next t)
    (h' : execNextPad len s' = .next t') :
    t.err = t'.err ∧ t.SameKey t' ∧ (t.err = 0 → bufReadBytes .padBuf len t = bufReadBytes .padBuf len t') := by
  obtain ⟨hbuild, hsecret, hhas, hcounter⟩ := hkey
  rcases execNextPad_cases len s with ⟨hs, e⟩ | ⟨hs, hlen, e⟩ | ⟨hs, hmin, hmax, e⟩ <;> cases e.symm.trans h <;>
    rw [hhas] at hs
  · cases (execNextPad_of_unentangled hs len).symm.trans h'
    exact ⟨rfl, ⟨hbuild, hsecret, hhas, hcounter⟩, fun h0 => absurd h0 (by simp [StatusCode.code])⟩
  · cases (execNextPad_of_illegal hs hlen).symm.trans h'
    exact ⟨rfl, ⟨hbuild, hsecret, hhas, hcounter⟩, fun h0 => absurd h0 (by simp [StatusCode.code])⟩
  · cases (execNextPad_of_legal hs hmin hmax).symm.trans h'
    refine ⟨rfl, ⟨hbuild, hsecret, hhas, congrArg advance hcounter⟩, fun _ => ?_⟩
    simp only [finish_bufReadBytes, advanceCounter_bufReadBytes, bufReadBytes_issuePad_derive, hbuild, hsecret,
      hcounter]

/-- No cipher command touches what pads are derived from. -/
theorem exec_cipher_sameKey {len : Nat} {i : Instr} {s t : State} (hi : i = .encrypt len ∨ i = .decrypt len)
    (h : exec i s = .next t) : s.SameKey t := by
  rcases exec_cipher_cases hi h with ⟨_, c, rfl⟩ | ⟨_, _, rfl⟩ <;> exact ⟨rfl, rfl, rfl, rfl⟩

theorem exec_sameKey {i : Instr} {s s' t t' : State} (hkey : s.SameKey s')
    (hin : ∀ len ≤ 1024, i = .setSeed len → bufReadBytes .inBuf len s = bufReadBytes .inBuf len s')
    (h : exec i s = .next t) (h' : exec i s' = .next t') : t.SameKey t' := by
  cases i with
  | setSeed len => exact execSetSeed_sameKey hkey (fun hlen => hin len hlen rfl) h h'
  | nextPad len =>
    obtain ⟨_, hkey', _⟩ := execNextPad_sameKey hkey h h'
    exact hkey'
  | encrypt len =>
    exact (exec_cipher_sameKey (.inl rfl) h).symm.trans (hkey.trans (exec_cipher_sameKey (.inl rfl) h'))
  | decrypt len =>
    exact (exec_cipher_sameKey (.inr rfl) h).symm.trans (hkey.trans (exec_cipher_sameKey (.inr rfl) h'))
  | resetState =>
    cases h
    cases h'
    obtain ⟨hbuild, _⟩ := hkey
    exact ⟨hbuild, rfl, rfl, rfl⟩

/-! ## Lockstep (R246) -/

/-- One key and one IN_BUF: all that later Secrets, counters and pads depend on. -/
def State.InLockstep (s s' : State) : Prop :=
  s.SameKey s' ∧ ∀ j < 1024, bufRead .inBuf j s = bufRead .inBuf j s'

theorem exec_lockstep {i : Instr} {s s' t t' : State} (hs : s.InLockstep s') (h : exec i s = .next t)
    (h' : exec i s' = .next t') : t.InLockstep t' := by
  obtain ⟨hkey, hin⟩ := hs
  refine ⟨exec_sameKey hkey (fun len hlen _ => ?_) h h', fun j hj => ?_⟩
  · exact (bufReadBytes_congr_iff .inBuf len s s').mpr fun j hj => hin j (hj.trans_le hlen)
  · rw [exec_keeps_inBuf h hj, exec_keeps_inBuf h' hj, hin j hj]

theorem runCommand_lockstep (w : Word) {s s' : State} (hs : s.InLockstep s') :
    ∃ t t', runCommand w s = .next t ∧ runCommand w s' = .next t' ∧ t.InLockstep t' := by
  cases hd : decode w with
  | error c => exact ⟨_, _, runCommand_of_decode_error hd s, runCommand_of_decode_error hd s', hs⟩
  | ok i =>
    rw [runCommand_of_decode_ok hd, runCommand_of_decode_ok hd]
    obtain ⟨t, ht⟩ := exec_total i s
    obtain ⟨t', ht'⟩ := exec_total i s'
    exact ⟨t, t', ht, ht', exec_lockstep hs ht ht'⟩

theorem deliverAll_commandEvents_lockstep (is : List Instr) (m m' : Nat) {s s' : State} (hs : s.InLockstep s') :
    ∃ t t', deliverAll (commandEvents m is) s = .next t ∧ deliverAll (commandEvents m' is) s' = .next t' ∧
      t.InLockstep t' := by
  induction is generalizing s s' with
  | nil => exact ⟨s, s', rfl, rfl, hs⟩
  | cons i is ih =>
    obtain ⟨u, u', hu, hu', huu⟩ := runCommand_lockstep (encode i) hs
    obtain ⟨t, t', ht, ht', htt⟩ := ih huu
    refine ⟨t, t', ?_, ?_, htt⟩
    · rw [commandEvents, List.map_cons, deliverAll_cons, deliver_cmdEvent, hu]
      exact ht
    · rw [commandEvents, List.map_cons, deliverAll_cons, deliver_cmdEvent, hu']
      exact ht'

/-- Settles O23: every command keeps the two in lockstep, and one key gives one pad. -/
theorem lockstepDeterminism : Obligations.LockstepDeterminism := by
  intro is m m' s s' hkey hin
  obtain ⟨t, t', ht, ht', htt, _⟩ :=
    deliverAll_commandEvents_lockstep is m m' ⟨hkey, (bufReadBytes_congr_iff .inBuf 1024 s s').mp hin⟩
  exact ⟨t, t', ht, ht', htt, fun len u u' hu hu' => execNextPad_sameKey htt hu hu'⟩

/-! ## Operands (R68, R256) -/

theorem cipherBytes_congr {len : Nat} {s s' : State} (hin : bufReadBytes .inBuf len s = bufReadBytes .inBuf len s')
    (hpad : bufReadBytes .padBuf len s = bufReadBytes .padBuf len s') : cipherBytes len s = cipherBytes len s' :=
  cipherBytes_of_operands hin hpad

/-- A cipher command reads PAD_LEN and its two operand ranges (R160, R161). -/
theorem exec_cipher_congr {len : Nat} {i : Instr} {s s' t t' : State} (hi : i = .encrypt len ∨ i = .decrypt len)
    (hpadLen : s.padLen = s'.padLen) (hbytes : cipherBytes len s = cipherBytes len s') (h : exec i s = .next t)
    (h' : exec i s' = .next t') :
    t.err = t'.err ∧ (t.err = 0 → bufReadBytes .outBuf len t = bufReadBytes .outBuf len t') := by
  have herr : t.err = t'.err := by
    rcases hi with rfl | rfl
    · rw [exec_encrypt_err h, exec_encrypt_err h', hpadLen]
    · rw [exec_decrypt_err h, exec_decrypt_err h', hpadLen, hbytes]
  refine ⟨herr, fun h0 => ?_⟩
  rcases exec_cipher_cases hi h with ⟨hne, _⟩ | ⟨_, _, rfl⟩
  · exact absurd h0 hne
  rcases exec_cipher_cases hi h' with ⟨hne, _⟩ | ⟨_, _, rfl⟩
  · exact absurd (herr.symm.trans h0) hne
  rw [bufReadBytes_cipherDone_cipherBytes, bufReadBytes_cipherDone_cipherBytes, hbytes]

/-- Settles O30: the key, ERR and the two lengths after a command are given by the registers and the operand ranges, and
so are the result bytes; the frame of each command is its own lemma. -/
theorem commandsTouchOnlyTheirOperands : Obligations.CommandsTouchOnlyTheirOperands := by
  refine ⟨fun len i s s' t t' hi ⟨hkey, herr, hpadLen, houtLen⟩ hin hpad h h' => ?congr, fun len s t =>
    ⟨fun h a => ?unwritten, fun h a ha => execNextPad_byteAt_other h (.inl ha), fun h a ha => ?cipher⟩⟩
  case congr =>
    have hcipher (hi : i = .encrypt len ∨ i = .decrypt len) :
        t.SameRegisters t' ∧ (t.err = 0 → bufReadBytes .outBuf len t = bufReadBytes .outBuf len t') := by
      have hbytes : cipherBytes len s = cipherBytes len s' :=
        cipherBytes_congr (hin (by rcases hi with rfl | rfl <;> simp) (by rcases hi with rfl | rfl <;> simp)) (hpad hi)
      obtain ⟨herr', hout⟩ := exec_cipher_congr hi hpadLen hbytes h h'
      obtain ⟨hp, ho⟩ := exec_cipher_lengths hi h
      obtain ⟨hp', ho'⟩ := exec_cipher_lengths hi h'
      exact ⟨⟨(exec_cipher_sameKey hi h).symm.trans (hkey.trans (exec_cipher_sameKey hi h')), herr',
        by rw [hp, hp', hpadLen], by rw [ho, ho', herr']⟩, hout⟩
    rcases hi with rfl | rfl | rfl | rfl | rfl
    · obtain ⟨hp, ho⟩ := exec_setSeed_lengths h
      obtain ⟨hp', ho'⟩ := exec_setSeed_lengths h'
      refine ⟨⟨execSetSeed_sameKey hkey (fun _ => hin (by simp) (by simp)) h h', ?_, by rw [hp, hp', hpadLen],
        by rw [ho, ho', houtLen]⟩, by simp, by simp⟩
      rw [exec_setSeed_err h, exec_setSeed_err h']
    · obtain ⟨hp, ho⟩ := exec_nextPad_lengths h
      obtain ⟨hp', ho'⟩ := exec_nextPad_lengths h'
      obtain ⟨herr', hkey', hpad'⟩ := execNextPad_sameKey hkey h h'
      exact ⟨⟨hkey', herr', by rw [hp, hp', herr', hpadLen], by rw [ho, ho', houtLen]⟩, fun _ => hpad', by simp⟩
    · exact ⟨(hcipher (.inl rfl)).1, by simp, fun _ => (hcipher (.inl rfl)).2⟩
    · exact ⟨(hcipher (.inr rfl)).1, by simp, fun _ => (hcipher (.inr rfl)).2⟩
    · cases h
      cases h'
      obtain ⟨hbuild, _⟩ := hkey
      exact ⟨⟨⟨hbuild, rfl, rfl, rfl⟩, rfl, hpadLen, houtLen⟩, by simp, by simp⟩
  case unwritten =>
    rcases h with h | h
    · exact execSetSeed_byteAt h a
    · cases h
      rfl
  case cipher =>
    rcases h with h | h
    · exact exec_cipher_byteAt_other (.inl rfl) h ha
    · exact exec_cipher_byteAt_other (.inr rfl) h ha

/-! ## Decrypting what was encrypted (R165, R166) -/

/-- Combining with the same pad twice gives the message back (R164, R165). -/
theorem xorCombine_xorCombine {m p : List Byte} (h : m.length ≤ p.length) : xorCombine (xorCombine m p) p = m := by
  refine List.ext_getElem (by simp [xorCombine, h]) fun i _ _ => ?_
  simp [xorCombine]

theorem bufRead_of_bufReadBytes_eq {b : Buf} {n : Nat} {s : State} {vs : List Byte} (h : bufReadBytes b n s = vs)
    {i : Nat} (hi : i < n) : bufRead b i s = vs.getD i 0 := by
  rw [← h, List.getD_eq_getElem _ _ (by simpa using hi), bufReadBytes_getElem]

/-- The bytes DECRYPT computes from what ENCRYPT gave: message, pad and pad (R166). -/
theorem cipherBytes_of_encrypted {len : Nat} {s t u : State} (hle : len ≤ s.padLen.toNat)
    (h : exec (.encrypt len) s = .next t) (hin : bufReadBytes .inBuf len u = bufReadBytes .outBuf len t) :
    bufReadBytes .inBuf len u = cipherBytes len s := by
  cases (execEncrypt_of_le hle).symm.trans h
  rw [hin, bufReadBytes_cipherDone_cipherBytes]

/-- Settles O28: under the same pad DECRYPT computes the message again, and its check is the message's own. -/
theorem encryptDecryptRoundTrip : Obligations.EncryptDecryptRoundTrip := by
  intro len s t u v hle ht hin hpad hle' hv
  have hM : cipherBytes len u = bufReadBytes .inBuf len s := by
    rw [cipherBytes_of_operands (cipherBytes_of_encrypted hle ht hin) hpad]
    exact xorCombine_xorCombine (by simp [inputBytes, padBytes])
  cases hwell : utf8WellFormed (bufReadBytes .inBuf len s) with
  | true =>
    cases (execDecrypt_of_wellFormed hle' (hM ▸ hwell)).symm.trans hv
    rw [bufReadBytes_cipherDone_cipherBytes, hM]
    simp
  | false =>
    cases (execDecrypt_of_illFormed hle' (hM ▸ hwell)).symm.trans hv
    simp [StatusCode.code]

/-- Under any pad, what DECRYPT returns of an encrypted message is message, pad and pad' combined (R166). -/
theorem bufRead_decrypted {len : Nat} {s t u v : State} (hle : len ≤ s.padLen.toNat)
    (ht : exec (.encrypt len) s = .next t) (hin : bufReadBytes .inBuf len u = bufReadBytes .outBuf len t)
    (hv : exec (.decrypt len) u = .next v) (herr : v.err = 0) {i : Nat} (hi : i < len) :
    bufRead .outBuf i v = bufRead .inBuf i s ^^^ bufRead .padBuf i s ^^^ bufRead .padBuf i u := by
  rcases exec_cipher_cases (.inr rfl) hv with ⟨hne, _⟩ | ⟨_, _, rfl⟩
  · exact absurd herr hne
  have hbytes := cipherBytes_of_encrypted hle ht hin
  have hbyte : bufRead .inBuf i u = bufRead .inBuf i s ^^^ bufRead .padBuf i s := by
    rw [bufRead_of_bufReadBytes_eq hbytes hi, List.getD_eq_getElem _ _ (by simpa using hi), cipherBytes_getElem]
  rw [bufRead_cipherDone_cipherBytes hi, hbyte]

/-- DECRYPT of no bytes succeeds under any pad: the empty message is well-formed (R166). -/
theorem execDecrypt_zero (s : State) : execDecrypt 0 s = .next { s with outLen := 0, err := 0 } :=
  execDecrypt_of_wellFormed (Nat.zero_le _) rfl

/-- Two Secrets that differ at index 1 give the same first pad byte (R166). -/
theorem exists_secrets_padByte_eq (k : Byte) (c : BitVec 8) :
    ∃ (S S' : Secret) (i : Nat), S ≠ S' ∧ padByte k S c i = padByte k S' c i :=
  ⟨Secret.zero, Secret.zero.set 1 1, 0, by decide, rfl⟩

/-- Settles O29: message, pad and pad' is the message only where the pads agree. -/
theorem desynchronisedDecryptNeverReturnsMessage : Obligations.DesynchronisedDecryptNeverReturnsMessage := by
  refine ⟨fun len s t u v hpos hle ht hin hpads hv => ⟨fun ⟨herr, hmessage⟩ => ?never, fun herr i hi =>
    bufRead_decrypted hle ht hin hv herr hi⟩, fun len s t s' t' hbuild hsecret hcounter h h' herr herr' i hi => ?pads,
    execDecrypt_zero, exists_secrets_padByte_eq⟩
  case never =>
    have hcombined := bufRead_decrypted hle ht hin hv herr hpos
    have hreturned : bufRead .outBuf 0 v = bufRead .inBuf 0 s :=
      (bufRead_of_bufReadBytes_eq hmessage hpos).trans (bufRead_of_bufReadBytes_eq rfl hpos).symm
    rw [hreturned, BitVec.xor_assoc] at hcombined
    have hzero : bufRead .padBuf 0 s ^^^ bufRead .padBuf 0 u = 0 :=
      (BitVec.xor_right_inj _).mp (hcombined.symm.trans BitVec.xor_zero.symm)
    exact hpads 0 hpos (BitVec.xor_eq_zero_iff.mp hzero).symm
  case pads =>
    obtain ⟨_, _, _, rfl⟩ := execNextPad_of_ok h herr
    obtain ⟨_, _, _, rfl⟩ := execNextPad_of_ok h' herr'
    simp only [finish_bufRead, advanceCounter_bufRead, bufRead_issuePad_derive _ _ _ hi, ← hbuild, ← hsecret]
    exact padByte_injective _ _ hcounter i

end Sys2Proof.Machine
end

section
/-! PROOFS. Buffers over the bus (20_memory.md section 2): a word reads back as written (R62, R65), and a loaded buffer
reads back whole (R99). -/

namespace Sys2Proof.Machine

/-! ## One word -/

/-- What a bus read answers depends on the registers and on the bytes of the word it reaches. -/
theorem busRead_congr_word {off : Nat} {s t : State} (hregs : t = { s with mem := t.mem })
    (hbytes : ∀ i < 4, t.byteAt (wordOffset off + i) = s.byteAt (wordOffset off + i)) :
    busRead off t = busRead off s := by
  unfold busRead
  cases htarget : target off with
  | buffer b w =>
    rw [(target_buffer_offset htarget).1] at hbytes
    have hbyte {i : Nat} (hi : i < 4) : bufRead b (4 * w + i) t = bufRead b (4 * w + i) s := by
      rw [bufRead, bufRead, ← Nat.add_assoc]
      exact hbytes i hi
    have hfirst : bufRead b (4 * w) t = bufRead b (4 * w) s := hbyte (i := 0) (by decide)
    simp only [bufReadWord, hfirst, hbyte (i := 1) (by decide), hbyte (i := 2) (by decide), hbyte (i := 3) (by decide)]
  | cmd | reserved => rfl
  | padLen | outLen => rw [hregs]
  | status | health | healthPct =>
    rw [hregs]
    rfl

theorem target_buffer_of_le {off : Nat} (h : 0x400 ≤ wordOffset off) : ∃ b w, target off = .buffer b w := by
  unfold target targetOfWord
  iterate 7 rw [if_neg (by omega)]
  split_ifs <;> exact ⟨_, _, rfl⟩

/-- A bus read of a buffer word answers the four bytes at its offset (R62, R66). -/
theorem busRead_eq_wordOfBytes {off : Nat} (h : 0x400 ≤ wordOffset off) (s : State) :
    busRead off s = wordOfBytes (s.byteAt (wordOffset off)) (s.byteAt (wordOffset off + 1))
      (s.byteAt (wordOffset off + 2)) (s.byteAt (wordOffset off + 3)) := by
  obtain ⟨b, w, htarget⟩ := target_buffer_of_le h
  obtain ⟨hoff, _⟩ := target_buffer_offset htarget
  rw [busRead, htarget, hoff]
  rfl

/-- The word written is the word read (R62). -/
theorem busRead_bufWriteWord_same {off w : Nat} {b : Buf} (hbuf : 0x400 ≤ wordOffset off)
    (hword : wordOffset off = b.base + 4 * w) (v : Word) (s : State) : busRead off (bufWriteWord b w v s) = v := by
  have hbyte {i : Nat} (hi : i < 4) := bufWriteWord_byteAt_same b w v s hi
  have hfirst := hbyte (i := 0) (by decide)
  rw [Nat.add_zero] at hfirst
  rw [busRead_eq_wordOfBytes hbuf, hword, hfirst, hbyte (i := 1) (by decide), hbyte (i := 2) (by decide),
    hbyte (i := 3) (by decide)]
  exact wordOfBytes_bytesOfWord v

/-- Settles O35: the word's four bytes are read back, and any other word's bytes lie outside it. -/
theorem bufferWordReadsBack : Obligations.BufferWordReadsBack := by
  intro s t off off' v hlo hhi h
  obtain ⟨b, w, hword, hwrite⟩ := busWrite_stores hlo hhi v s
  cases hwrite.symm.trans h
  refine ⟨busRead_bufWriteWord_same hlo hword v s, fun hother => busRead_congr_word rfl fun i hi => ?_⟩
  refine bufWriteWord_byteAt_other b w v s ?_
  have hother' : wordOffset off' ≠ wordOffset off := hother
  have hmod := wordOffset_mod off
  have hmod' := wordOffset_mod off'
  omega

/-! ## A whole buffer -/

theorem wordCount_le {n : Nat} (h : n ≤ 1024) : wordCount n ≤ 256 := by
  unfold wordCount
  omega

theorem le_four_mul_wordCount (n : Nat) : n ≤ 4 * wordCount n := by
  unfold wordCount
  omega

/-- The byte at `i` of a loaded word (R99). -/
theorem bytesOfWord_loadWord_getD (bytes : List Byte) (w : Nat) {i : Nat} (h : i < 4) :
    (bytesOfWord (loadWord bytes w)).getD i 0 = bytes.getD (4 * w + i) 0 := by
  rw [loadWord, bytesOfWord_wordOfBytes]
  interval_cases i <;> rfl

/-- A write of word `w` of IN_BUF or PAD_BUF stores it (R67). -/
theorem busWrite_buffer {b : Buf} (hb : b = .inBuf ∨ b = .padBuf) {w : Nat} (hw : w < 256) (v : Word) (s : State) :
    busWrite (b.base + 4 * w) v s = .next (bufWriteWord b w v s) := by
  rw [busWrite, target_of_buffer b hw]
  rcases hb with rfl | rfl <;> rfl

/-- `t` is `s` with the buffer's first `n` bytes taken from `bytes`, zeros past its end. -/
structure State.LoadedFrom (s : State) (b : Buf) (bytes : List Byte) (n : Nat) (t : State) : Prop where
  registers : t = { s with mem := t.mem }
  byteAt : ∀ a, t.byteAt a = if b.base ≤ a ∧ a < b.base + n then bytes.getD (a - b.base) 0 else s.byteAt a

theorem loadedFrom_bufWriteWord {s t : State} {b : Buf} {bytes : List Byte} {w : Nat}
    (h : s.LoadedFrom b bytes (4 * w) t) :
    s.LoadedFrom b bytes (4 * (w + 1)) (bufWriteWord b w (loadWord bytes w) t) := by
  obtain ⟨hregs, hbytes⟩ := h
  refine ⟨by rw [hregs]; rfl, fun a => ?_⟩
  by_cases ha : b.base + 4 * w ≤ a ∧ a < b.base + 4 * w + 4
  · rw [bufWriteWord_byteAt, if_pos ha, if_pos (by omega), bytesOfWord_loadWord_getD bytes w (by omega)]
    congr 1
    omega
  · rw [bufWriteWord_byteAt, if_neg ha, hbytes]
    by_cases hlow : b.base ≤ a ∧ a < b.base + 4 * w
    · rw [if_pos hlow, if_pos (by omega)]
    · rw [if_neg hlow, if_neg (by omega)]

theorem deliverAll_load_words {b : Buf} (hb : b = .inBuf ∨ b = .padBuf) (master : Nat) (bytes : List Byte) (s : State)
    {k : Nat} (hk : k ≤ 256) :
    ∃ t, deliverAll ((List.range k).map fun w => .write master (b.base + 4 * w) (loadWord bytes w)) s = .next t ∧
      s.LoadedFrom b bytes (4 * k) t := by
  induction k with
  | zero => exact ⟨s, rfl, rfl, fun a => by rw [if_neg (by omega)]⟩
  | succ k ih =>
    obtain ⟨t, ht, hloaded⟩ := ih (by omega)
    refine ⟨bufWriteWord b k (loadWord bytes k) t, ?_, loadedFrom_bufWriteWord hloaded⟩
    rw [List.range_succ, List.map_append, deliverAll_append, ht, andThen_next, List.map_singleton, deliverAll_cons,
      deliver_write, busWrite_buffer hb (by omega), andThen_next, deliverAll_nil]

/-- Loading a buffer stores its words one after another (R99). -/
theorem deliverAll_loadEvents {b : Buf} (hb : b = .inBuf ∨ b = .padBuf) (master : Nat) {bytes : List Byte}
    (hlen : bytes.length ≤ 1024) (s : State) :
    ∃ t, deliverAll (loadEvents master b bytes) s = .next t ∧ s.LoadedFrom b bytes (4 * wordCount bytes.length) t :=
  deliverAll_load_words hb master bytes s (wordCount_le hlen)

theorem State.LoadedFrom.bufReadBytes_eq {s t : State} {b : Buf} {bytes : List Byte}
    (h : s.LoadedFrom b bytes (4 * wordCount bytes.length) t) : bufReadBytes b bytes.length t = bytes := by
  have hcover := le_four_mul_wordCount bytes.length
  rw [bufReadBytes_eq_iff]
  intro i hi
  rw [bufRead, h.byteAt, if_pos (by omega), Nat.add_sub_cancel_left, List.getD_eq_getElem _ _ hi]

theorem State.LoadedFrom.byteAt_other {s t : State} {b : Buf} {bytes : List Byte} {n : Nat}
    (h : s.LoadedFrom b bytes n t) {a : Nat} (ha : ¬ (b.base ≤ a ∧ a < b.base + n)) : t.byteAt a = s.byteAt a := by
  rw [h.byteAt, if_neg ha]

/-- The words of a buffer, one after another, are its bytes (R62). -/
theorem flatMap_busRead (b : Buf) (s : State) {k : Nat} (hk : k ≤ 256) :
    ((List.range k).flatMap fun w => bytesOfWord (busRead (b.base + 4 * w) s)) = bufReadBytes b (4 * k) s := by
  induction k with
  | zero => rfl
  | succ k ih =>
    rw [List.range_succ, List.flatMap_append, ih (by omega), List.flatMap_singleton, busRead_buffer b (by omega),
      bufReadWord, bytesOfWord_wordOfBytes]
    simp only [bufReadBytes, Nat.mul_add, List.range_add, List.map_append]
    rfl

/-- The bytes a script keeps of its reads are the buffer's (R99). -/
theorem readBuffer_eq_bufReadBytes (b : Buf) {n : Nat} (hn : n ≤ 1024) (s : State) :
    readBuffer b n s = bufReadBytes b n s := by
  rw [readBuffer, flatMap_busRead b s (wordCount_le hn), bufReadBytes, ← List.map_take, List.take_range,
    Nat.min_eq_left (le_four_mul_wordCount n), bufReadBytes]

/-- Settles O36: the loaded words cover the bytes, and the reads go over the same words. -/
theorem loadedBufferReadsBack : Obligations.LoadedBufferReadsBack := by
  intro s b master bytes hb hlen
  obtain ⟨t, ht, hloaded⟩ := deliverAll_loadEvents hb master hlen s
  refine ⟨t, ht, hloaded.registers, hloaded.bufReadBytes_eq, ?_, fun i hi hwords => ?_, fun a => hloaded.byteAt_other⟩
  · rw [readBuffer_eq_bufReadBytes b hlen, hloaded.bufReadBytes_eq]
  · rw [bufRead, hloaded.byteAt, if_pos (by omega), Nat.add_sub_cancel_left, List.getD_eq_default _ _ hi]

end Sys2Proof.Machine
end

section
/-! PROOFS. The assembler (30_encoding.md R98, R99): the numbers it reads, the words it spells and the listings it
prints. -/

namespace Sys2Proof.Machine

/-! ## Digits -/

theorem digitValue_digitChar {d : Nat} (h : d < 16) : digitValue (Nat.digitChar d) = some d := by
  have hall : ∀ d < 16, digitValue (Nat.digitChar d) = some d := by decide
  exact hall d h

theorem digitValue_hexDigit : ∀ v : BitVec 4, digitValue (hexDigit v) = some v.toNat := by decide

theorem hexDigit_mem : ∀ v : BitVec 4, hexDigit v ∈ "0123456789ABCDEF".toList := by decide

/-- A digit below the base goes on from the value so far. -/
theorem parseDigits_cons {base acc d : Nat} {ch : Char} (hch : digitValue ch = some d) (hd : d < base) (rest : Text) :
    parseDigits base acc (ch :: rest) = parseDigits base (acc * base + d) rest := by
  rw [parseDigits, hch]
  exact if_pos hd

theorem parseDigits_append (base acc : Nat) (T U : Text) :
    parseDigits base acc (T ++ U) = (parseDigits base acc T).bind fun value => parseDigits base value U := by
  induction T generalizing acc with
  | nil => rfl
  | cons ch T ih =>
    rw [List.cons_append, parseDigits, parseDigits]
    cases digitValue ch with
    | none => rfl
    | some d =>
      dsimp only
      split_ifs
      · exact ih _
      · rfl

/-- Digits of any base up to 16 read back as their number, by induction on the number. -/
theorem parseDigits_toDigits {base : Nat} (h1 : 1 < base) (h16 : base ≤ 16) (n : Nat) :
    parseDigits base 0 (Nat.toDigits base n) = some n := by
  induction n using Nat.strong_induction_on with
  | h n ih =>
    have hlast {d : Nat} (hd : d < base) (acc : Nat) :
        parseDigits base acc [Nat.digitChar d] = some (acc * base + d) :=
      parseDigits_cons (digitValue_digitChar (by omega)) hd []
    by_cases hn : n < base
    · rw [Nat.toDigits_of_lt_base hn, hlast hn, Nat.zero_mul, Nat.zero_add]
    · rw [Nat.toDigits_of_base_le h1 (by omega), parseDigits_append, ih _ (Nat.div_lt_self (by omega) h1),
        Option.bind_some, hlast (Nat.mod_lt n (by omega)), Nat.div_add_mod']

/-! ## Numbers -/

/-- `x` is no digit, so a text of decimal digits does not begin with `0x`. -/
theorem parseNumber_of_decimal {T : Text} {n : Nat} (hT : T ≠ []) (h : parseDigits 10 0 T = some n) :
    parseNumber T = some n := by
  have hx : digitValue 'x' = none := by decide
  have hzero : digitValue '0' = some 0 := by decide
  unfold parseNumber
  split
  · exact absurd rfl hT
  · simp [parseDigits, hx, hzero] at h
  · simp [parseDigits, hx, hzero] at h
  · exact h

theorem parseNumber_of_hex {T : Text} (hT : T ≠ []) : parseNumber ('0' :: 'x' :: T) = parseDigits 16 0 T := by
  cases T with
  | nil => exact absurd rfl hT
  | cons ch T => rfl

/-- Settles O6: the digits of either base read back, and neither text is empty. -/
theorem assemblerReadsNumbers : Obligations.AssemblerReadsNumbers := by
  intro n
  refine ⟨parseNumber_of_decimal Nat.toDigits_ne_nil (parseDigits_toDigits (by decide) (by decide) n), ?_⟩
  rw [parseNumber_of_hex Nat.toDigits_ne_nil, parseDigits_toDigits (by decide) (by decide)]

/-! ## Listings -/

theorem parseDigits_hexDigits (acc : Nat) (vs : List (BitVec 4)) :
    parseDigits 16 acc (vs.map hexDigit) = some (vs.foldl (fun value v => value * 16 + v.toNat) acc) := by
  induction vs generalizing acc with
  | nil => rfl
  | cons v vs ih => rw [List.map_cons, parseDigits_cons (digitValue_hexDigit v) v.isLt, ih, List.foldl_cons]

/-- The eight hexadecimal digits of a word, the highest first. -/
def nibbles (w : Word) : List (BitVec 4) := (List.range 8).map fun i => w.extractLsb' (28 - 4 * i) 4

theorem listing_eq (w : Word) : listing w = '0' :: 'x' :: (nibbles w).map hexDigit := by
  rw [listing, nibbles, List.map_map]
  rfl

theorem nibbles_value (w : Word) : (nibbles w).foldl (fun value v => value * 16 + v.toNat) 0 = w.toNat := by
  have hw := w.isLt
  simp only [nibbles, List.range_succ, List.range_zero, List.map_append, List.map_cons, List.map_nil, List.foldl_append,
    List.foldl_cons, List.foldl_nil, List.nil_append, BitVec.extractLsb'_toNat, Nat.shiftRight_eq_div_pow]
  omega

theorem parseNumber_listing (w : Word) : parseNumber (listing w) = some w.toNat := by
  rw [listing_eq, parseNumber_of_hex (by simp [nibbles]), parseDigits_hexDigits, nibbles_value]

/-! ## Command words -/

/-- A mnemonic with a length is the encoder's word while the length fits the LEN field, and is refused above (R98). -/
theorem assemble_lengthCommand {m num : Text} {len op : Nat} {i : Instr} (hnum : parseNumber num = some len)
    (hm : lengthCommand m len = some i) (hwf : i.wellFormed = decide (len < Config.lenLimit))
    (hword : encode i = commandWord len op) (hop : op < 16) :
    (len ≤ 65535 → assemble [m, num] = some (BitVec.ofNat 32 (len * 65536 + op))) ∧
    (65535 < len → assemble [m, num] = none) := by
  have hassemble : assemble [m, num] = if len < 65536 then some (commandWord len op) else none := by
    simp only [assemble, parseCommand, hnum, Option.bind_some, hm, hwf, hword, decide_eq_true_eq]
  rw [hassemble]
  refine ⟨fun hle => ?_, fun hgt => if_neg (by omega)⟩
  rw [if_pos (by omega), commandWord_eq_ofNat (by omega) hop]

/-- Settles O5: each mnemonic names its row, and a listing is the word's eight hexadecimal digits. -/
theorem assemblerSpellsCommandWords : Obligations.AssemblerSpellsCommandWords := by
  refine ⟨fun num len hnum => ?mnemonics, by decide, by decide, fun w => ⟨?length, parseNumber_listing w, ?digits⟩⟩
  case mnemonics =>
    obtain ⟨hseed, hseed'⟩ :=
      assemble_lengthCommand (m := "SETSEED".toList) (i := .setSeed len) (op := 1) hnum rfl rfl rfl (by decide)
    obtain ⟨hpad, hpad'⟩ :=
      assemble_lengthCommand (m := "NEXTPAD".toList) (i := .nextPad len) (op := 2) hnum rfl rfl rfl (by decide)
    obtain ⟨henc, henc'⟩ :=
      assemble_lengthCommand (m := "ENCRYPT".toList) (i := .encrypt len) (op := 3) hnum rfl rfl rfl (by decide)
    obtain ⟨hdec, hdec'⟩ :=
      assemble_lengthCommand (m := "DECRYPT".toList) (i := .decrypt len) (op := 4) hnum rfl rfl rfl (by decide)
    exact ⟨fun h => ⟨hseed h, hpad h, henc h, hdec h⟩, fun h => ⟨hseed' h, hpad' h, henc' h, hdec' h⟩⟩
  case length => simp [listing]
  case digits =>
    refine ⟨_, listing_eq w, fun ch hch => ?_⟩
    obtain ⟨v, _, rfl⟩ := List.mem_map.mp hch
    exact hexDigit_mem v

end Sys2Proof.Machine
end

section
/-! PROOFS. The UTF-8 codec (45_host_layer.md R191, R192): decoding is the inverse of encoding, and is defined where the
check of R163 holds. -/

namespace Sys2Proof.Machine

/-! ## The bytes of a scalar value, as numbers -/

/-- The bytes of R191 for the scalar value `n`, as numbers. -/
def utf8Numbers (n : Nat) : List Nat :=
  if n < 0x80 then [n]
  else if n < 0x800 then [0xC0 + n / 64, 0x80 + n % 64]
  else if n < 0x10000 then [0xE0 + n / 4096, 0x80 + n / 64 % 64, 0x80 + n % 64]
  else [0xF0 + n / 262144, 0x80 + n / 4096 % 64, 0x80 + n / 64 % 64, 0x80 + n % 64]

theorem contByte_toNat (n k : Nat) : (contByte n k).toNat = 0x80 + n / 64 ^ k % 64 := by
  rw [contByte, BitVec.toNat_ofNat]
  omega

theorem char_toNat_lt (ch : Char) : ch.toNat < 0x110000 := by
  have hscalar : ch.toNat.isValidChar := ch.valid
  unfold Nat.isValidChar at hscalar
  omega

theorem utf8EncodeChar_toNat (ch : Char) : (utf8EncodeChar ch).map BitVec.toNat = utf8Numbers ch.toNat := by
  have hlt := char_toNat_lt ch
  unfold utf8EncodeChar utf8Numbers
  dsimp only
  split_ifs <;> simp [contByte_toNat, BitVec.toNat_ofNat] <;> omega

/-- The encoder gives a row of R163's table: no surrogate has a scalar value, and none is over 10FFFF. -/
theorem utf8Sequence_utf8Numbers {n : Nat} (hn : n.isValidChar) : Utf8Sequence (utf8Numbers n) := by
  unfold utf8Numbers Utf8Sequence
  unfold Nat.isValidChar at hn
  split_ifs <;> simp <;> omega

/-! ## The scalar value of a sequence of bytes -/

/-- The scalar value the decoder reads from a sequence: the first byte's bits, then six of each byte after it. -/
def codePoint : List Byte → Nat
  | [] => 0
  | b :: p => p.foldl (fun acc c => acc * 64 + c.toNat % 64) (leadBits p.length b)

/-- A row of R163's table is the encoder's bytes of the scalar value it holds: no value has two spellings. -/
theorem utf8Numbers_codePoint {q : List Byte} (hq : Utf8Sequence (q.map BitVec.toNat)) :
    (codePoint q).isValidChar ∧ utf8Numbers (codePoint q) = q.map BitVec.toNat := by
  unfold Nat.isValidChar
  rcases q with _ | ⟨a, _ | ⟨b, _ | ⟨c, _ | ⟨d, _ | ⟨e, q⟩⟩⟩⟩⟩ <;> simp [Utf8Sequence] at hq
  · have hvalue : codePoint [a] = a.toNat := rfl
    rw [hvalue, utf8Numbers, if_pos (by omega)]
    exact ⟨by omega, rfl⟩
  · have hvalue : codePoint [a, b] = a.toNat % 32 * 64 + b.toNat % 64 := rfl
    rw [hvalue, utf8Numbers, if_neg (by omega), if_pos (by omega)]
    simp only [List.map_cons, List.map_nil, List.cons.injEq, and_true]
    omega
  · have hvalue : codePoint [a, b, c] = (a.toNat % 16 * 64 + b.toNat % 64) * 64 + c.toNat % 64 := rfl
    rw [hvalue, utf8Numbers, if_neg (by omega), if_neg (by omega), if_pos (by omega)]
    simp only [List.map_cons, List.map_nil, List.cons.injEq, and_true]
    omega
  · have hvalue : codePoint [a, b, c, d] =
        ((a.toNat % 8 * 64 + b.toNat % 64) * 64 + c.toNat % 64) * 64 + d.toNat % 64 := rfl
    rw [hvalue, utf8Numbers, if_neg (by omega), if_neg (by omega), if_neg (by omega)]
    simp only [List.map_cons, List.map_nil, List.cons.injEq, and_true]
    omega

/-- Encoding the scalar value of a sequence gives the sequence. -/
theorem utf8EncodeChar_codePoint {q : List Byte} (hq : Utf8Sequence (q.map BitVec.toNat)) :
    utf8EncodeChar (Char.ofNat (codePoint q)) = q := by
  obtain ⟨hvalid, hnumbers⟩ := utf8Numbers_codePoint hq
  have hvalue : (Char.ofNat (codePoint q)).toNat = codePoint q := by rw [Char.toNat_ofNat, if_pos hvalid]
  refine List.map_injective_iff.mpr (fun _ _ => BitVec.eq_of_toNat_eq) ?_
  rw [utf8EncodeChar_toNat, hvalue, hnumbers]

theorem utf8Sequence_utf8EncodeChar (ch : Char) : Utf8Sequence ((utf8EncodeChar ch).map BitVec.toNat) := by
  rw [utf8EncodeChar_toNat]
  exact utf8Sequence_utf8Numbers ch.valid

/-- No two scalar values share their bytes: R191's four forms do not meet, and each holds all the value's bits. -/
theorem utf8Numbers_injective {m n : Nat} (hm : m < 0x110000) (hn : n < 0x110000)
    (h : utf8Numbers m = utf8Numbers n) : m = n := by
  unfold utf8Numbers at h
  split_ifs at h <;> simp at h <;> omega

theorem utf8EncodeChar_injective : Function.Injective utf8EncodeChar := by
  intro ch ch' h
  have hnumbers := congrArg (List.map BitVec.toNat) h
  rw [utf8EncodeChar_toNat, utf8EncodeChar_toNat] at hnumbers
  exact Char.toNat_inj.mp (utf8Numbers_injective (char_toNat_lt ch) (char_toNat_lt ch') hnumbers)

/-- The scalar value of a character's bytes is the character's. -/
theorem ofNat_codePoint_utf8EncodeChar (ch : Char) : Char.ofNat (codePoint (utf8EncodeChar ch)) = ch :=
  utf8EncodeChar_injective (utf8EncodeChar_codePoint (utf8Sequence_utf8EncodeChar ch))

/-! ## Decoding sequence by sequence -/

/-- Decoding the bytes still wanted, and then the rest. -/
theorem utf8DecodeFrom_want {want : List ByteRange} {p : List Byte} (hp : Fills want p) (hwant : want ≠ []) (acc : Nat)
    (M : List Byte) :
    utf8DecodeFrom acc want (p ++ M) =
      (utf8DecodeFrom 0 [] M).map (Char.ofNat (p.foldl (fun acc c => acc * 64 + c.toNat % 64) acc) :: ·) := by
  induction hp generalizing acc with
  | nil => exact absurd rfl hwant
  | @cons r b rs p hb hrest ih =>
    rw [List.cons_append, utf8DecodeFrom, if_pos hb]
    cases hrest with
    | nil => rfl
    | cons hb' hrest' => exact ih (by simp) _

theorem utf8Decode_sequence_append {q : List Byte} (hq : Utf8Sequence (q.map BitVec.toNat)) (M : List Byte) :
    utf8Decode (q ++ M) = (utf8Decode M).map (Char.ofNat (codePoint q) :: ·) := by
  obtain ⟨row, hrow, hfills⟩ := (utf8Sequence_iff_fills_row q).mp hq
  obtain ⟨b, p, hb, hp, rfl⟩ := List.forall₂_cons_left_iff.mp hfills
  have hfirst := (utf8Row_eq_some_iff b row).mpr ⟨hrow, hb⟩
  have hlength : row.rest.length = p.length := List.Forall₂.length_eq hp
  obtain ⟨first, rest⟩ := row
  rw [utf8Decode, utf8Decode, List.cons_append, utf8DecodeFrom, hfirst]
  cases rest with
  | nil =>
    rw [List.forall₂_nil_left_iff.mp hp]
    rfl
  | cons r rs =>
    dsimp only at hp hlength ⊢
    rw [utf8DecodeFrom_want hp (by simp), codePoint, ← hlength, List.length_cons]

theorem utf8Decode_flatten {qs : List (List Byte)} (hqs : ∀ q ∈ qs, Utf8Sequence (q.map BitVec.toNat)) :
    utf8Decode qs.flatten = some (qs.map fun q => Char.ofNat (codePoint q)) := by
  induction qs with
  | nil => rfl
  | cons q qs ih =>
    obtain ⟨hq, hqs⟩ := List.forall_mem_cons.mp hqs
    rw [List.flatten_cons, utf8Decode_sequence_append hq, ih hqs]
    rfl

/-- Where decoding is defined the scan succeeds: it asks for the same ranges. -/
theorem utf8Scan_of_utf8DecodeFrom {acc : Nat} {want : List ByteRange} {M : List Byte} {text : Text}
    (h : utf8DecodeFrom acc want M = some text) : utf8Scan want M = true := by
  induction M generalizing acc want text with
  | nil =>
    rw [utf8DecodeFrom] at h
    split_ifs at h with hwant
    exact hwant
  | cons b M ih =>
    cases want with
    | nil =>
      rw [utf8DecodeFrom] at h
      cases hrow : utf8Row b with
      | none => simp [hrow] at h
      | some row =>
        rw [utf8Scan, hrow]
        rw [hrow] at h
        obtain ⟨first, _ | ⟨r, rs⟩⟩ := row
        · obtain ⟨_, hM, _⟩ := Option.map_eq_some_iff.mp h
          exact ih hM
        · exact ih h
    | cons r rs =>
      rw [utf8DecodeFrom] at h
      split_ifs at h with hb hrs
      · obtain ⟨_, hM, _⟩ := Option.map_eq_some_iff.mp h
        rw [List.isEmpty_iff.mp hrs]
        exact (utf8Scan_want_iff r [] b M).mpr ⟨hb, ih hM⟩
      · exact (utf8Scan_want_iff r rs b M).mpr ⟨hb, ih h⟩

/-! ## Texts -/

theorem sequences_of_utf8WellFormed {M : List Byte} (h : utf8WellFormed M = true) :
    ∃ qs : List (List Byte), M = qs.flatten ∧ ∀ q ∈ qs, Utf8Sequence (q.map BitVec.toNat) := by
  obtain ⟨htable, _⟩ := utf8CheckMatchesTable
  exact (htable M).mp h

theorem utf8Encode_sequences (text : Text) : ∀ q ∈ text.map utf8EncodeChar, Utf8Sequence (q.map BitVec.toNat) := by
  intro q hq
  obtain ⟨ch, _, rfl⟩ := List.mem_map.mp hq
  exact utf8Sequence_utf8EncodeChar ch

theorem utf8Encode_eq_flatten (text : Text) : utf8Encode text = (text.map utf8EncodeChar).flatten :=
  List.flatMap_def

theorem utf8WellFormed_utf8Encode (text : Text) : utf8WellFormed (utf8Encode text) = true := by
  rw [utf8Encode_eq_flatten]
  exact utf8WellFormed_flatten (utf8Encode_sequences text)

theorem utf8Decode_utf8Encode (text : Text) : utf8Decode (utf8Encode text) = some text := by
  rw [utf8Encode_eq_flatten, utf8Decode_flatten (utf8Encode_sequences text), List.map_map]
  simp [Function.comp_def, ofNat_codePoint_utf8EncodeChar]

/-- The one text whose encoding a sequence of rows is. -/
theorem utf8Encode_codePoints {qs : List (List Byte)} (hqs : ∀ q ∈ qs, Utf8Sequence (q.map BitVec.toNat)) :
    utf8Encode (qs.map fun q => Char.ofNat (codePoint q)) = qs.flatten := by
  rw [utf8Encode_eq_flatten, List.map_map]
  have hself : qs.map (utf8EncodeChar ∘ fun q => Char.ofNat (codePoint q)) = qs.map id :=
    List.map_congr_left fun q hq => utf8EncodeChar_codePoint (hqs q hq)
  rw [hself, List.map_id]

/-- Settles O53: bytes the check takes are rows of the table, each the encoding of its own scalar value. -/
theorem utf8CodecInverse : Obligations.Utf8CodecInverse := by
  refine ⟨fun text => ⟨utf8WellFormed_utf8Encode text, utf8Decode_utf8Encode text⟩, fun M => ⟨fun h => ?defined,
    fun ⟨text, h⟩ => utf8Scan_of_utf8DecodeFrom h⟩, fun M text h => ?encoded⟩
  case defined =>
    obtain ⟨qs, rfl, hqs⟩ := sequences_of_utf8WellFormed h
    exact ⟨_, utf8Decode_flatten hqs⟩
  case encoded =>
    obtain ⟨qs, rfl, hqs⟩ := sequences_of_utf8WellFormed (utf8Scan_of_utf8DecodeFrom h)
    cases (utf8Decode_flatten hqs).symm.trans h
    exact utf8Encode_codePoints hqs

end Sys2Proof.Machine
end

section
/-! PROOFS. The host layer (45_host_layer.md): its reports (R183, R184), its errors (R196, R197), host_nextPad (R198),
host_setSeed (R199) and the round trip of two parties. -/

namespace Sys2Proof.Machine

/-! ## What the host reads -/

theorem readErr_eq (s : State) : readErr s = s.err := by
  rw [readErr, busRead_status, statusWord_err]

theorem healthOfCode_code (h : HealthStatus) : healthOfCode h.code = some h := by
  cases h <;> rfl

/-- The fields of HEALTH as the host takes them apart (R35, R183). -/
theorem healthWord_fields (s : State) :
    ((healthWord s).extractLsb' 24 8).toNat = s.counter.toNat ∧
    ((healthWord s).extractLsb' 0 9).toNat = 256 - s.counter.toNat ∧
    (healthWord s).extractLsb' 16 2 = (healthStatus s.counter).code := by
  have hc := s.counter.isLt
  have hcode := (healthStatus s.counter).code.isLt
  have hword := healthWord_toNat s
  have htop : (healthWord s).toNat / 2 ^ 24 = s.counter.toNat := by omega
  have hmiddle : (healthWord s).toNat / 2 ^ 16 = s.counter.toNat * 256 + (healthStatus s.counter).code.toNat := by omega
  rw [← BitVec.toNat_inj (x := (healthWord s).extractLsb' 16 2)]
  simp only [BitVec.extractLsb'_toNat, Nat.shiftRight_eq_div_pow, htop, hmiddle]
  refine ⟨?_, ?_, ?_⟩ <;> omega

theorem healthPctWord_field (s : State) :
    ((healthPctWord s).extractLsb' 0 15).toNat = (256 - s.counter.toNat) * 100 := by
  rw [BitVec.extractLsb'_toNat, healthPctWord_toNat, Nat.shiftRight_eq_div_pow]
  omega

/-- The fields of STATUS as the host takes them apart (R31, R184). -/
theorem statusWord_fields (s : State) :
    (statusWord s).getLsbD 8 = s.hasSecret ∧ ((statusWord s).extractLsb' 16 8).toNat = s.counter.toNat := by
  have herr := s.err.isLt
  have hc := s.counter.isLt
  rw [BitVec.extractLsb'_toNat, BitVec.getLsbD, Nat.testBit_eq_decide_div_mod_eq, statusWord_toNat,
    Nat.shiftRight_eq_div_pow]
  cases s.hasSecret <;> simp <;> omega

/-- Settles O39: the fields the host reads are the fields of the three registers. -/
theorem hostReportsHealthAndState : Obligations.HostReportsHealthAndState := by
  intro s
  obtain ⟨hcounter, hremaining, hclass⟩ := healthWord_fields s
  obtain ⟨hhas, hcounter'⟩ := statusWord_fields s
  refine ⟨?_, ?_, readErr_eq s⟩
  · simp only [hostGetHealth, busRead_health, busRead_healthPct, hcounter, hremaining, hclass, healthOfCode_code,
      healthPctWord_field]
  · simp only [hostState, busRead_status, hhas, hcounter']

/-- Settles O56: each check is made before any transaction. -/
theorem hostErrorsWithoutCommand : Obligations.HostErrorsWithoutCommand := by
  refine ⟨fun skip message pad s h => if_pos h, fun skip text pad s h => ?_, fun skip text pad c s h hlen => ?_⟩
  · rw [hostDecrypt, h]
  · rw [hostDecrypt, h]
    exact if_pos hlen

/-! ## One command -/

/-- A CMD write of an encoded command runs it (R90, R98). -/
theorem busWrite_encode {i : Instr} (hi : i.wellFormed = true) (s : State) :
    busWrite offCmd (encode i) s = exec i s := by
  rw [busWrite_cmd (by decide), runCommand_of_decode_ok (decodeEncodeRoundTrip i hi)]

theorem hostNextPad_eq {length : Nat} (h : length ≤ 65535) {s t : State} (ht : exec (.nextPad length) s = .next t) :
    hostNextPad length s =
      if t.err = StatusCode.notEntangled.code then .next (t, .error .notEntangled)
      else if t.err = StatusCode.lengthOutOfRange.code then .next (t, .error .lengthOutOfRange)
      else .next (t, .ok (readBuffer .padBuf length t)) := by
  have hwf : (Instr.nextPad length).wellFormed = true := decide_eq_true (Nat.lt_succ_of_le h)
  rw [hostNextPad, if_neg (Nat.not_le.mpr (Nat.lt_succ_of_le h)), busWrite_encode hwf, ht, andThen_next, readErr_eq]

/-- Settles O57: each case of NEXTPAD's answer is a case of the host's. -/
theorem hostNextPadByRule : Obligations.HostNextPadByRule := by
  refine fun length s => ⟨rfl, fun h => if_pos h, fun hlen hs => ?unentangled, fun hlen hs hillegal => ?illegal,
    fun hs hmin hmax => ⟨_, execNextPad_of_legal hs hmin hmax, ?legal⟩⟩
  case unentangled =>
    rw [hostNextPad_eq hlen (execNextPad_of_unentangled hs length)]
    exact if_pos rfl
  case illegal =>
    rw [hostNextPad_eq hlen (execNextPad_of_illegal hs hillegal)]
    rfl
  case legal =>
    rw [hostNextPad_eq (by omega) (execNextPad_of_legal hs hmin hmax), readBuffer_eq_bufReadBytes .padBuf hmax,
      finish_bufReadBytes, advanceCounter_bufReadBytes, bufReadBytes_issuePad_derive]
    rfl

/-- Loading IN_BUF keeps the key and leaves the bytes there (R99). -/
theorem deliverAll_load_inBuf {bytes : List Byte} (hlen : bytes.length ≤ 1024) (s : State) :
    ∃ t, deliverAll (loadEvents 0 .inBuf bytes) s = .next t ∧ t = { s with mem := t.mem } ∧
      bufReadBytes .inBuf bytes.length t = bytes ∧ ∀ i, bufRead .padBuf i t = bufRead .padBuf i s := by
  obtain ⟨t, ht, hloaded⟩ := deliverAll_loadEvents (.inl rfl) 0 hlen s
  have hwords := wordCount_le hlen
  refine ⟨t, ht, hloaded.registers, hloaded.bufReadBytes_eq, fun i => hloaded.byteAt_other ?_⟩
  simp only [Buf.base]
  omega

/-- Settles O58: a legal seed is loaded into IN_BUF, and SETSEED reduces it. -/
theorem hostSetSeedByRule : Obligations.HostSetSeedByRule := by
  refine ⟨fun raw s => ⟨fun h => if_pos h, fun h => ?long, fun hmin hmax => ?legal⟩, fun s => busWrite_encode rfl s⟩
  case long => rw [hostSetSeed, if_neg (show ¬ raw.length < 16 by omega), if_pos h]
  case legal =>
    obtain ⟨t, ht, hregs, hin, _⟩ := deliverAll_load_inBuf hmax s
    have hwf : (Instr.setSeed raw.length).wellFormed = true := lt_lenLimit_of_le hmax
    have hbuild : t.build = s.build := by rw [hregs]
    refine ⟨finish .ok (entangle (reduce t.build.reduce (inputBytes raw.length t)) t), ?_, ?_, rfl, rfl, rfl⟩
    · rw [hostSetSeed, if_neg (Nat.not_lt.mpr hmin), if_neg (Nat.not_lt.mpr hmax), ht, andThen_next,
        busWrite_encode hwf, exec_setSeed, execSetSeed_of_legal hmin hmax, andThen_next]
    · rw [finish_secret, entangle_secret, inputBytes, hin, hbuild]

/-! ## The round trip -/

/-- PAD_BUF and PAD_LEN hold the pad. -/
structure State.HoldsPad (s : State) (pad : List Byte) : Prop where
  padLen : s.padLen.toNat = pad.length
  bytes : bufReadBytes .padBuf pad.length s = pad

theorem holdsPad_of_padHeld {pad : List Byte} (hlen : pad.length ≤ 1024) {s : State} (h : padHeld pad s = true) :
    s.HoldsPad pad := by
  rw [padHeld, Bool.and_eq_true, decide_eq_true_eq, decide_eq_true_eq, busRead_padLen, setWidth_len_toNat,
    readBuffer_eq_bufReadBytes .padBuf hlen] at h
  obtain ⟨hpadLen, hbytes⟩ := h
  exact ⟨hpadLen, hbytes⟩

/-- Whether the host loads the pad or leaves it out, PADGEN then holds it (R196). -/
theorem loadPad_holdsPad (skip : Bool) {pad : List Byte} (hlen : pad.length ≤ 1024) (s : State) :
    ∃ t, loadPad skip pad s = .next t ∧ t.HoldsPad pad := by
  rw [loadPad]
  split_ifs with hskip
  · obtain ⟨_, hheld⟩ := Bool.and_eq_true_iff.mp hskip
    exact ⟨s, rfl, holdsPad_of_padHeld hlen hheld⟩
  · obtain ⟨t, ht, hloaded⟩ := deliverAll_loadEvents (.inr rfl) 0 hlen s
    have hword : (BitVec.ofNat 32 pad.length).toNat = pad.length := by
      rw [BitVec.toNat_ofNat, Nat.mod_eq_of_lt (by omega)]
    refine ⟨writePadLen (BitVec.ofNat 32 pad.length) t, ?_, ?_, ?_⟩
    · rw [ht, andThen_next, busWrite_padLen (by decide)]
    · rw [writePadLen_padLen_of_le (by omega), hword]
    · have hbytes : bufReadBytes .padBuf pad.length (writePadLen (BitVec.ofNat 32 pad.length) t) =
          bufReadBytes .padBuf pad.length t :=
        (bufReadBytes_congr_iff _ _ _ _).mpr fun i _ => writePadLen_byteAt _ t _
      rw [hbytes, hloaded.bufReadBytes_eq]

theorem State.HoldsPad.bufReadBytes_take {s : State} {pad : List Byte} (h : s.HoldsPad pad) {len : Nat}
    (hle : len ≤ pad.length) : bufReadBytes .padBuf len s = pad.take len := by
  rw [← h.bytes, bufReadBytes, bufReadBytes, ← List.map_take, List.take_range, Nat.min_eq_left hle]

/-- The pad past the input's end is not used (R164). -/
theorem xorCombine_take (a p : List Byte) : xorCombine a (p.take a.length) = xorCombine a p :=
  List.ext_getElem (by simp [xorCombine]) fun i _ _ => by simp [xorCombine]

/-- The script loads both operands of the command and runs it (R196, R197). -/
theorem cipherScript_eq (skip : Bool) {i : Instr} (hi : i.wellFormed = true) {input pad : List Byte}
    (hle : input.length ≤ pad.length) (hlen : pad.length ≤ 1024) (s : State) :
    ∃ t, cipherScript skip i input pad s = exec i t ∧ input.length ≤ t.padLen.toNat ∧
      cipherBytes input.length t = xorCombine input pad := by
  obtain ⟨u, hu, hpad⟩ := loadPad_holdsPad skip hlen s
  obtain ⟨t, ht, hregs, hin, hkept⟩ := deliverAll_load_inBuf (hle.trans hlen) u
  refine ⟨t, ?_, ?_, ?_⟩
  · rw [cipherScript, hu, andThen_next, ht, andThen_next, busWrite_encode hi]
  · have hpadLen : t.padLen = u.padLen := by rw [hregs]
    rw [hpadLen, hpad.padLen]
    exact hle
  · have hpad' : bufReadBytes .padBuf input.length t = pad.take input.length :=
      ((bufReadBytes_congr_iff _ _ _ _).mpr fun i _ => hkept i).trans (hpad.bufReadBytes_take hle)
    rw [cipherBytes_of_operands hin hpad', xorCombine_take]

/-- What the host reads of a result is the result (R162). -/
theorem readResult_cipherDone {len : Nat} {s : State} (hle : len ≤ s.padLen.toNat) (hlen : len ≤ 1024) :
    readResult (cipherDone (cipherBytes len s) s) = cipherBytes len s := by
  rw [readResult, busRead_outLen, setWidth_len_toNat, cipherDone_outLen_toNat hle,
    readBuffer_eq_bufReadBytes .outBuf hlen, bufReadBytes_cipherDone_cipherBytes]

/-- host_encrypt answers the message combined with the pad, in base64 (R196). -/
theorem hostEncrypt_eq (skip : Bool) {message : Text} {pad : List Byte}
    (hle : (utf8Encode message).length ≤ pad.length) (hlen : pad.length ≤ 1024) (s : State) :
    ∃ t, hostEncrypt skip message pad s = .next (t, .ok (base64Encode (xorCombine (utf8Encode message) pad))) := by
  have hwf : (Instr.encrypt (utf8Encode message).length).wellFormed = true := lt_lenLimit_of_le (hle.trans hlen)
  obtain ⟨t, ht, hpadLen, hbytes⟩ := cipherScript_eq skip hwf hle hlen s
  refine ⟨cipherDone (cipherBytes (utf8Encode message).length t) t, ?_⟩
  rw [hostEncrypt, if_neg (by omega), ht, exec_encrypt, execEncrypt_of_le hpadLen, andThen_next,
    readResult_cipherDone hpadLen (hle.trans hlen), hbytes]

/-- host_decrypt answers the text of the bytes combined with the pad, where they are a text's (R197). -/
theorem hostDecrypt_eq (skip : Bool) {ciphertext message : Text} {c pad : List Byte}
    (hc : base64Decode ciphertext = some c) (hle : c.length ≤ pad.length) (hlen : pad.length ≤ 1024)
    (hmessage : xorCombine c pad = utf8Encode message) (s : State) :
    ∃ t, hostDecrypt skip ciphertext pad s = .next (t, .ok message) := by
  have hwf : (Instr.decrypt c.length).wellFormed = true := lt_lenLimit_of_le (hle.trans hlen)
  obtain ⟨t, ht, hpadLen, hbytes⟩ := cipherScript_eq skip hwf hle hlen s
  rw [hmessage] at hbytes
  have hwell : utf8WellFormed (cipherBytes c.length t) = true := hbytes ▸ utf8WellFormed_utf8Encode message
  refine ⟨cipherDone (cipherBytes c.length t) t, ?_⟩
  rw [hostDecrypt, hc]
  dsimp only
  rw [if_neg (by omega), ht, exec_decrypt, execDecrypt_of_wellFormed hpadLen hwell, andThen_next, readErr_eq,
    if_neg (by simp [StatusCode.code]), readResult_cipherDone hpadLen (hle.trans hlen), hbytes, utf8Decode_utf8Encode]

/-- Settles O55: the ciphertext decodes to the message combined with the pad, which combines back to the message. -/
theorem hostRoundTrip : Obligations.HostRoundTrip := by
  intro skip skip' message pad s s' hle hlen
  obtain ⟨t, ht⟩ := hostEncrypt_eq skip hle hlen s
  have hlength : (xorCombine (utf8Encode message) pad).length ≤ pad.length := by simp [xorCombine]
  obtain ⟨u, hu⟩ := hostDecrypt_eq skip' (base64Decode_base64Encode _) hlength hlen (xorCombine_xorCombine hle) s'
  exact ⟨t, _, u, ht, hu⟩

end Sys2Proof.Machine
end
